-- ==== Sys2Proof/Word.lean ====
section
/-! DEFINITION. The two widths of the block's unsigned values (spec 00_scope.md R9, R10): the 8-bit byte and the
16-bit word. Every register value is unsigned (40_fetch_and_addressing.md R92). -/

namespace Sys2Proof

/-- `u8`: a memory byte, an opcode, an operand byte, `A`, `X` or `Y` (R9: `BYTE_BITS`, `A_BITS`, `X_BITS`, `Y_BITS`). -/
abbrev Byte := BitVec 8

/-- `u16`: `PC`, `SP`, an address or a 16-bit operand (R9: `PC_BITS`, `SP_BITS`, `ADDR_BITS`). -/
abbrev Word := BitVec 16

end Sys2Proof
end

