-- ==== Sys2Proof/Syntax.lean ====
section
/-! DEFINITION. The instructions (spec 30_encoding.md R60 to R65, spec/opcode_table.json): one constructor per row of
the opcode table, and the names the decoder and the table use. -/

namespace Sys2Proof

/-- The decoded instruction: one constructor per row of spec/opcode_table.json. -/
inductive Instr where
  /-- `LDA #$nn`, opcode 0xA9: `imm` is the byte after the opcode (R120). -/
  | ldaImm (imm : Byte)
  /-- `LDA $nn`, opcode 0xA5: `zp` is a zero-page address (R121). -/
  | ldaZp (zp : Byte)
  /-- `LDA $nn,X`, opcode 0xB5: `zp` is a zero-page base (R122). -/
  | ldaZpx (zp : Byte)
  /-- `JSR $hhll`, opcode 0x20: `target` is assembled low byte first (R130). -/
  | jsrAbs (target : Word)
  /-- Any unmapped opcode byte `op`, which takes the default handler (R140). -/
  | unhandled (op : Byte)
deriving DecidableEq, Repr

/-- The handlers of the opcode table: the "tagged handler variant" of 41_dispatch_fsm.md R105. -/
inductive Handler where
  | ldaImm | ldaZp | ldaZpx | jsrAbs
deriving DecidableEq, Repr

/-- The addressing modes (30_encoding.md R62, 40_fetch_and_addressing.md R85 to R88). -/
inductive Mode where
  | immediate | zeroPage | zeroPageX | absolute
deriving DecidableEq, Repr

/-- The instruction formats of 30_encoding.md R60. -/
inductive Format where
  | op | imm8 | zp8 | abs16
deriving DecidableEq, Repr

/-- One row of the opcode table of 30_encoding.md R62. -/
structure Row where
  opcode  : Byte
  handler : Handler
  mode    : Mode
  format  : Format
  length  : Nat
  cycles  : Nat
deriving DecidableEq, Repr

/-- Why a list of bytes gives no instruction: only that it ends too soon (every byte value decodes, R63). -/
inductive DecodeError where
  /-- There is no opcode byte. -/
  | noOpcode
  /-- The opcode's operand bytes are not all there. -/
  | truncated (op : Byte) (needed present : Nat)
deriving DecidableEq, Repr

end Sys2Proof
end

