-- ==== Sys2Proof/WellFormed.lean ====
section
/-! DEFINITION. Which instruction terms stand for words of the encoding: an `unhandled` carries one of the 252
unmapped opcodes (spec 30_encoding.md R62, R65); every other operand value is legal. -/

namespace Sys2Proof

/-- The four mapped opcode bytes of R62. -/
def mappedOpcodes : List Byte := [0xA9#8, 0xA5#8, 0xB5#8, 0x20#8]

/-- The check: the byte of an `unhandled` is none of the four mapped ones. -/
def Instr.wf : Instr → Bool
  | .ldaImm _ => true
  | .ldaZp _ => true
  | .ldaZpx _ => true
  | .jsrAbs _ => true
  | .unhandled op => !mappedOpcodes.contains op

/-- The instruction is one the decoder can give. -/
abbrev Instr.WellFormed (i : Instr) : Prop := i.wf = true

end Sys2Proof
end

