-- ==== Sys2Proof/Decode.lean ====
section
/-! DEFINITION. The opcode decoder and the encoder (spec 30_encoding.md), with the byte-order helpers they use.
The decoder reads nothing but bytes (R63), and the opcode alone fixes the length (R64). -/

namespace Sys2Proof

/-! ## Bytes and words (00_scope.md R10) -/

/-- `{hi, lo}` = `hi * 256 + lo` (R10, R61). -/
def wordOf (hi lo : Byte) : Word := BitVec.ofNat 16 (hi.toNat * 256 + lo.toNat)

/-- `v[7:0]` (R10). -/
def lowByte (v : Word) : Byte := v.extractLsb' 0 8

/-- `v[15:8]` (R10). -/
def highByte (v : Word) : Byte := v.extractLsb' 8 8

/-- `zext_16` of a byte (R10). -/
def zext16 (v : Byte) : Word := v.setWidth 16

/-- `zext_17` of a word: the address as the memory port carries it (R80, R84, R190). -/
def zext17 (v : Word) : BitVec 17 := v.setWidth 17

/-! ## The opcode table -/

/-- The four rows of R62, in its order, with the cycle totals of 41_dispatch_fsm.md R107. -/
def opcodeTable : List Row :=
  [ { opcode := 0xA9#8, handler := .ldaImm, mode := .immediate, format := .imm8, length := 2, cycles := 2 },
    { opcode := 0xA5#8, handler := .ldaZp, mode := .zeroPage, format := .zp8, length := 2, cycles := 3 },
    { opcode := 0xB5#8, handler := .ldaZpx, mode := .zeroPageX, format := .zp8, length := 2, cycles := 4 },
    { opcode := 0x20#8, handler := .jsrAbs, mode := .absolute, format := .abs16, length := 3, cycles := 6 } ]

/-- The table lookup, on all 8 bits of the opcode (R63); `none` is an unmapped opcode (R65). -/
def lookup (op : Byte) : Option Row := opcodeTable.find? fun r => r.opcode == op

/-- The length of the instruction whose opcode is `op` (R64): an unmapped opcode is one byte. -/
def lengthOf (op : Byte) : Nat :=
  match lookup op with
  | some r => r.length
  | none => 1

/-- The total charge of the instruction whose opcode is `op` (R107): an unmapped opcode costs one cycle. -/
def cyclesOf (op : Byte) : Nat :=
  match lookup op with
  | some r => r.cycles
  | none => 1

/-! ## Decoding -/

/-- The instruction of an opcode and the two bytes after it, of which a form takes what its format says (R60, R61).
Total: every byte value gives a row's instruction or `unhandled` (R63). -/
def instrOf (op b1 b2 : Byte) : Instr :=
  match lookup op with
  | none => .unhandled op
  | some r =>
    match r.handler with
    | .ldaImm => .ldaImm b1
    | .ldaZp => .ldaZp b1
    | .ldaZpx => .ldaZpx b1
    | .jsrAbs => .jsrAbs (wordOf b2 b1)

/-- Decode the instruction at the head of a list of bytes and give the bytes after it; a list that ends inside the
instruction is rejected by name. -/
def decode : List Byte → Except DecodeError (Instr × List Byte)
  | [] => .error .noOpcode
  | op :: rest =>
    if rest.length + 1 < lengthOf op then .error (.truncated op (lengthOf op - 1) rest.length)
    else .ok (instrOf op (rest.getD 0 0#8) (rest.getD 1 0#8), rest.drop (lengthOf op - 1))

/-! ## Encoding -/

/-- The opcode byte of an instruction (R62, R65). -/
def Instr.opcode : Instr → Byte
  | .ldaImm _ => 0xA9#8
  | .ldaZp _ => 0xA5#8
  | .ldaZpx _ => 0xB5#8
  | .jsrAbs _ => 0x20#8
  | .unhandled op => op

/-- The bytes of an instruction in increasing address order (R60). -/
def encode : Instr → List Byte
  | .ldaImm imm => [0xA9#8, imm]
  | .ldaZp zp => [0xA5#8, zp]
  | .ldaZpx zp => [0xB5#8, zp]
  | .jsrAbs target => [0x20#8, lowByte target, highByte target]
  | .unhandled op => [op]

/-- The length in bytes (R60, R64). -/
def Instr.length : Instr → Nat
  | .ldaImm _ => 2
  | .ldaZp _ => 2
  | .ldaZpx _ => 2
  | .jsrAbs _ => 3
  | .unhandled _ => 1

/-- The total charge in cycles, opcode fetch included (41_dispatch_fsm.md R107). -/
def Instr.cycles : Instr → Nat
  | .ldaImm _ => 2
  | .ldaZp _ => 3
  | .ldaZpx _ => 4
  | .jsrAbs _ => 6
  | .unhandled _ => 1

/-! ## Words as spec/opcode_table.json numbers their bits -/

/-- Byte `k` of the bits `w`, cut to the first `nbits`: byte 0 is the opcode, byte 1 is bits 15..8, byte 2 bits 23..16. -/
def tableByte (nbits w k : Nat) : Byte := BitVec.ofNat 8 ((w % 2 ^ nbits) / 2 ^ (8 * k))

/-- The three bytes (the longest instruction) of a table word, the first at the lowest address. -/
def tableBytes (nbits w : Nat) : List Byte := [tableByte nbits w 0, tableByte nbits w 1, tableByte nbits w 2]

/-- The instruction the decoder reads from a table word: the bits above `nbits` are zero. -/
def decodeTableWord (nbits w : Nat) : Option Instr :=
  match decode (tableBytes nbits w) with
  | .ok (i, _) => some i
  | .error _ => none

end Sys2Proof
end

