-- ==== Sys2Proof/Config.lean ====
section
/-! DEFINITION. What this hardware fixes (spec 00_scope.md R9), and the free values of the state a fatal fault leaves
(60_exceptions.md R153, decision D13: "The rest of the state is unspecified"). -/

namespace Sys2Proof.Config

/-- `MEM_CAPACITY`: 65,536 bytes (R9, 20_memory.md R40). -/
def memCapacity : Nat := 65536

/-- `RESET_PC`: the address the first opcode is fetched from (R9, 70_reset_and_hazards.md R181). -/
def resetPC : Word := 0xFFFC#16

/-- `RESET_SP` (R9, 10_state.md R23). -/
def resetSP : Word := 0x0100#16

/-- `MAX_INSN_CYCLES`: the dearest instruction, JSR (R9, 41_dispatch_fsm.md R107). -/
def maxInsnCycles : Nat := 6

/-- The least `BUDGET_BITS` of a hardware build (R9). The model's counter is unbounded (R32); nothing in the step
reads this: it only says which budgets a build accepts (decision D11). -/
def minBudgetBits : Nat := 32

/-! The free values, DESIGN CHOICE (log 4): what each register, the counter, the log and the memory hold after a
`MemOutOfRange` fault. Each is applied to the counter `State.freeCount`. None has a body, so no claim can
depend on the state after the fault other than `fault` and `run` (R153). -/

/-- `PC` after a fatal fault: free (R153). -/
opaque faultedPC : Nat → Word
/-- `SP` after a fatal fault: free (R153). -/
opaque faultedSP : Nat → Word
/-- `A` after a fatal fault: free (R153). -/
opaque faultedA : Nat → Byte
/-- `X` after a fatal fault: free (R153). -/
opaque faultedX : Nat → Byte
/-- `Y` after a fatal fault: free (R153). -/
opaque faultedY : Nat → Byte
/-- The seven flags after a fatal fault, one free bit each (R153). -/
opaque faultedFlags : Nat → BitVec 7
/-- `cycles` after a fatal fault: free (R153). -/
opaque faultedCycles : Nat → Int
/-- The opcodes of the events in `log` after a fatal fault: free (R153). -/
opaque faultedLog : Nat → List Byte
/-- The memory after a fatal fault, as writes upon a cleared memory: free (R153, 20_memory.md R44). -/
opaque faultedCells : Nat → List (Nat × Byte)

end Sys2Proof.Config
end

