-- ==== Sys2Proof/Machine/State.lean ====
section
/-! DEFINITION. The machine's state as plain data (spec 10_state.md R20, 20_memory.md R40), the two error kinds
(60_exceptions.md R150), the host's requests and what it gets back (70_reset_and_hazards.md R188), why a step stops, and
the state right after reset. -/

namespace Sys2Proof.Machine

/-- The seven status flags, each an independent bit (R28). -/
structure Flags where
  /-- Carry. -/
  c : Bool
  /-- Zero. -/
  z : Bool
  /-- Interrupt-disable. -/
  i : Bool
  /-- Decimal. -/
  d : Bool
  /-- Break. -/
  b : Bool
  /-- Overflow. -/
  v : Bool
  /-- Negative. -/
  n : Bool
deriving DecidableEq, Repr

/-- The fatal error kind of R150, with the out-of-range address it records (R34, R151). -/
inductive FatalError where
  /-- A memory access at an address outside the 65,536 bytes (20_memory.md R41 to R44). -/
  | memOutOfRange (addr : Nat)
deriving DecidableEq, Repr

/-- A recoverable report of R150 (R35). -/
inductive Event where
  /-- The opcode table has no entry for the fetched byte `op` (44_unhandled.md R140). -/
  | unhandledOpcode (op : Byte)
deriving DecidableEq, Repr

/-- The position of the dispatch FSM (R36, 41_dispatch_fsm.md R103). -/
inductive RunState where
  /-- No execute is in progress. -/
  | idle
  /-- Inside execute. -/
  | running
  /-- A fatal error happened. -/
  | faulted
deriving DecidableEq, Repr

/-- The memory: (address, byte) pairs, addresses rising, no zero byte listed; an unlisted address reads as 0x00,
the value `MemInit` gives every byte (20_memory.md R47). -/
abbrev Memory := List Host.Cell

/-- The host's requests (70_reset_and_hazards.md R188). -/
inductive HostOp where
  /-- `reset()` (R180). -/
  | reset
  /-- A memory write of the byte `v` at `addr` (R186). -/
  | memWrite (addr : Nat) (v : Byte)
  /-- A memory read at `addr` (R188). -/
  | memRead (addr : Nat)
  /-- `execute(budget)` (41_dispatch_fsm.md R100). -/
  | execute (budget : Int)
  /-- A read of the block's state (R188). -/
  | readState
deriving DecidableEq, Repr

/-- What a state read gives the host (R188; the port `host.state` of R190). -/
structure HostView where
  pc     : Word
  sp     : Word
  a      : Byte
  x      : Byte
  y      : Byte
  p      : Flags
  cycles : Int
  fault  : Option FatalError
  log    : List Event
  run    : RunState
deriving DecidableEq, Repr

/-- What the host gets back from a request (the last column of R188's table). -/
inductive HostReply where
  /-- Nothing but control: a reset, a memory write, or an execute that returned with `run = Idle`. -/
  | done
  /-- The byte a memory read gives. -/
  | byte (v : Byte)
  /-- `MemOutOfRange`: the host's own access failed, or the execute ended in the fatal fault. -/
  | memOutOfRange (addr : Nat)
  /-- The state read. -/
  | state (view : HostView)
deriving DecidableEq, Repr

/-- The state of the system between steps: the block's (R20), the memory (R40), and the model's own fields for the
host's side and the free values. -/
structure State where
  /-- `PC`: the address of the next instruction byte (R21). -/
  pc : Word
  /-- `SP`: the address the next return address is written at, with no page base (R23). -/
  sp : Word
  /-- `A`, the accumulator (R24). -/
  a : Byte
  /-- `X`, an index register (R25). -/
  x : Byte
  /-- `Y`, an index register (R26). -/
  y : Byte
  /-- `P`, the seven flags (R28). -/
  p : Flags
  /-- `cycles`, the cycle budget left, an unbounded integer (R32). -/
  cycles : Int
  /-- `fault`: none, or the fatal error that happened (R34). -/
  fault : Option FatalError
  /-- `log`, the diagnostic log, oldest event first (R35). -/
  log : List Event
  /-- `run`, the position of the dispatch FSM (R36). -/
  run : RunState
  /-- `mem`, the attached memory (R40). -/
  mem : Memory
  /-- The model's own: how many times free values were drawn (log 4). -/
  freeCount : Nat
  /-- The model's own: the host's requests not yet served, oldest first (log 3). -/
  hostQueue : List HostOp
  /-- The model's own: what the host got back from its last request (log 3). -/
  hostReply : Option HostReply
  /-- The model's own: the address of a host access that failed since the last reset (R186; log 7). -/
  hostError : Option Nat
deriving DecidableEq, Repr

/-- Why the machine has no next state. -/
inductive Fault where
  /-- Raised by the step of a block whose `run` is `Faulted`, and by every host operation on it but a state read, with
  the recorded fatal error: "from then on the block has no step at all, not execute, not reset" (60_exceptions.md
  R152). Safe: the spec gives no step there (log 6). -/
  | blockFaulted (cause : Option FatalError)
deriving DecidableEq, Repr

/-- Why a step is given no meaning. -/
inductive Refusal where
  /-- Raised by exec's arm of an instruction without a meaning; no arm of this model does. Safe: it claims nothing. -/
  | notModelled (mnemonic : String)
  /-- Raised by the host request `execute` after a host memory access at `addr` was out of range: "a launch after it is
  not a launch this spec describes" (70_reset_and_hazards.md R186, decision D24). Safe: it claims nothing (log 7). -/
  | launchAfterHostError (addr : Nat)
  /-- Raised by a host operation on a block whose `run` is `Running`: "while `run = Running` the host is blocked in
  execute" (70_reset_and_hazards.md R188). No step makes one there. Safe: it claims nothing (log 18). -/
  | hostBlocked
deriving DecidableEq, Repr

/-- All seven flags clear (R28). -/
def Flags.clear : Flags :=
  { c := false, z := false, i := false, d := false, b := false, v := false, n := false }

/-- The machine right after reset (10_state.md section 7, 70_reset_and_hazards.md R180): memory all zero, so nothing
listed, and the log empty (the state `R` of 95_test_vectors.md; log 11). -/
def State.reset : State :=
  { pc := Config.resetPC, sp := Config.resetSP, a := 0x00#8, x := 0x00#8, y := 0x00#8, p := Flags.clear,
    cycles := 0, fault := none, log := [], run := .idle, mem := [],
    freeCount := 0, hostQueue := [], hostReply := none, hostError := none }

end Sys2Proof.Machine
end

