-- ==== Sys2Proof/Machine/Flags.lean ====
section
/-! DEFINITION. The ALU: exactly the six functions of spec 40_fetch_and_addressing.md R91, the flag write of the LDA
family (10_state.md R29), and the flags as one byte for a host (R30). -/

namespace Sys2Proof.Machine

/-- `zflag(v)`: `v = 0x00` (R91). -/
def zflag (v : Byte) : Bool := v == 0x00#8

/-- `nflag(v)`: bit 7 of `v` (R91). -/
def nflag (v : Byte) : Bool := v.getLsbD 7

/-- `idx8(zp, x)`: `(zp + x) mod 2^8` (R91, decision D6). -/
def idx8 (zp x : Byte) : Byte := zp + x

/-- `inc16(v)`: `(v + 1) mod 2^16` (R91, decisions D4 and D5). -/
def inc16 (v : Word) : Word := v + 1#16

/-- `dec16(v)`: `(v - 1) mod 2^16` (R91, decision D5). -/
def dec16 (v : Word) : Word := v - 1#16

/-- `inc17(a)`: `a + 1`, exact, a 17-bit value (R91; conflict C2). -/
def inc17 (a : Word) : BitVec 17 := zext17 a + 1#17

/-- The LDA family's flag write: Zero and Negative from the value, the other five untouched (R29). -/
def setZN (v : Byte) (p : Flags) : Flags := { p with z := zflag v, n := nflag v }

/-- The packed view `P` = N, V, 0, B, D, I, Z, C from bit 7 down to bit 0, for host read-back only (R30, decision D14). -/
def packFlags (p : Flags) : Byte :=
  BitVec.ofBool p.n ++ BitVec.ofBool p.v ++ 0#1 ++ BitVec.ofBool p.b ++ BitVec.ofBool p.d ++ BitVec.ofBool p.i
    ++ BitVec.ofBool p.z ++ BitVec.ofBool p.c

/-- Seven bits as the seven flags, for the free flags a fatal fault leaves (60_exceptions.md R153). -/
def flagsOfBits (v : BitVec 7) : Flags :=
  { c := v.getLsbD 0, z := v.getLsbD 1, i := v.getLsbD 2, d := v.getLsbD 3, b := v.getLsbD 4, v := v.getLsbD 5,
    n := v.getLsbD 6 }

end Sys2Proof.Machine
end

