-- ==== Sys2Proof/Machine/Ops.lean ====
section
/-! DEFINITION. The named operations every meaning is written in: the memory primitives (spec 20_memory.md R40 to R47),
the charge (00_scope.md R13), the fetch unit (40_fetch_and_addressing.md R80 to R84), the report of an unhandled opcode
(44_unhandled.md R140) and the fatal fault (60_exceptions.md R152). There is no return from a fault (R157). -/

namespace Sys2Proof.Machine

/-! ## Memory (20_memory.md) -/

/-- The byte at `addr`: the listed one, or 0x00 (R47). -/
def memByte : Memory → Nat → Byte
  | [], _ => 0x00#8
  | c :: m, addr => if c.1 = addr then c.2 else memByte m addr

/-- The memory without an entry at `addr`. -/
def memDrop (m : Memory) (addr : Nat) : Memory := m.filter fun c => c.1 != addr

/-- The memory with one more entry, in its place by address. -/
def memInsert (addr : Nat) (v : Byte) : Memory → Memory
  | [] => [(addr, v)]
  | c :: m => if addr < c.1 then (addr, v) :: c :: m else c :: memInsert addr v m

/-- `mem[addr] <- v`, keeping the canonical form: a zero byte is not listed. -/
def memPut (m : Memory) (addr : Nat) (v : Byte) : Memory :=
  if v = 0x00#8 then memDrop m addr else memInsert addr v (memDrop m addr)

/-- The canonical form from address `lo` on: addresses strictly rising and inside the memory, no zero byte listed. -/
def memWfFrom : Nat → Memory → Bool
  | _, [] => true
  | lo, c :: m => decide (lo ≤ c.1) && decide (c.1 < Config.memCapacity) && c.2 != 0x00#8 && memWfFrom (c.1 + 1) m

/-- The memory is in canonical form. -/
def Memory.wf (m : Memory) : Bool := memWfFrom 0 m

/-- `MemRead(addr, 1)`: raises at an address outside the memory, otherwise the byte there; no side effect (R41). -/
def memRead (m : Memory) (addr : Nat) : Except FatalError Byte :=
  if addr < Config.memCapacity then .ok (memByte m addr) else .error (.memOutOfRange addr)

/-- `MemWrite(addr, 1, v)`: raises at an address outside the memory, otherwise `mem[addr] <- v` (R42). -/
def memWrite (m : Memory) (addr : Nat) (v : Byte) : Except FatalError Memory :=
  if addr < Config.memCapacity then .ok (memPut m addr v) else .error (.memOutOfRange addr)

/-- `MemWrite(zext_17(addr), 2, v)`: the low byte at `addr`, then the high byte at `addr + 1` computed exactly
(R44, R48; conflict C2). -/
def memWriteWord (m : Memory) (addr v : Word) : Except FatalError Memory :=
  match memWrite m (zext17 addr).toNat (lowByte v) with
  | .error e => .error e
  | .ok m' => memWrite m' (inc17 addr).toNat (highByte v)

/-- `MemInit()`: every byte 0x00 (R47). -/
def memInit : Memory := []

/-- A memory from any list of cells, written in turn upon the cleared memory; a cell outside the memory is passed over. -/
def memOfCells (cells : List (Nat × Byte)) : Memory :=
  cells.foldl (fun m c => if c.1 < Config.memCapacity then memPut m c.1 c.2 else m) memInit

/-! ## The cycle counter and the fetch unit (40_fetch_and_addressing.md) -/

/-- `charge(n)`: `cycles <- cycles - n` (00_scope.md R13). -/
def charge (n : Nat) (s : State) : State := { s with cycles := s.cycles - n }

/-- What one `fetchByte` does to the state: `PC <- (PC + 1) mod 2^16` and 1 cycle (R80). -/
def advance (s : State) : State := charge 1 { s with pc := inc16 s.pc }

/-- `fetchByte()`: the byte at `PC`, and the advance (R80). -/
def fetchByte (s : State) : Except FatalError (Byte × State) :=
  match memRead s.mem (zext17 s.pc).toNat with
  | .error e => .error e
  | .ok v => .ok (v, advance s)

/-- `readByte(addr)`: the byte at a resolved address, `PC` unchanged, 1 cycle (R81). -/
def readByte (addr : Word) (s : State) : Except FatalError (Byte × State) :=
  match memRead s.mem (zext17 addr).toNat with
  | .error e => .error e
  | .ok v => .ok (v, charge 1 s)

/-- `fetchAbsoluteAddress()`: low byte first, then high byte; 2 cycles, 1 for each fetch (R82, R83). -/
def fetchAbsoluteAddress (s : State) : Except FatalError (Word × State) :=
  match fetchByte s with
  | .error e => .error e
  | .ok (lo, s1) =>
    match fetchByte s1 with
    | .error e => .error e
    | .ok (hi, s2) => .ok (wordOf hi lo, s2)

/-- `writeWord(addr, v)`: the two-byte write and 2 cycles; a raise comes before the charge (R84). -/
def writeWord (addr v : Word) (s : State) : Except FatalError State :=
  match memWriteWord s.mem addr v with
  | .error e => .error e
  | .ok m => .ok (charge 2 { s with mem := m })

/-! ## The two error kinds (60_exceptions.md) -/

/-- `report UnhandledOpcode(op)`: one event appended to the log, nothing else (00_scope.md R14, 10_state.md R35). -/
def report (op : Byte) (s : State) : State := { s with log := s.log ++ [.unhandledOpcode op] }

/-- The code of the fatal kind (R151, decision D19). -/
def fatalCode : FatalError → Nat
  | .memOutOfRange _ => 1

/-- The code of the recoverable kind (R151, decision D19). -/
def eventCode : Event → Nat
  | .unhandledOpcode _ => 2

/-- The address a fatal error records (R151, decision D29). -/
def fatalAddr : FatalError → Nat
  | .memOutOfRange addr => addr

/-- TAKING THE FATAL FAULT, the block's one exceptional entry: `fault <- e`, `run <- Faulted` (R152), the host gets the
error back in place of a normal return (R188), and everything else is a free value, so that no claim can depend on the
state after the fault other than `fault` (R153, decision D13; log 4). The host's own requests stand. -/
def takeFault (e : FatalError) (s : State) : State :=
  { pc := Config.faultedPC s.freeCount
    sp := Config.faultedSP s.freeCount
    a := Config.faultedA s.freeCount
    x := Config.faultedX s.freeCount
    y := Config.faultedY s.freeCount
    p := flagsOfBits (Config.faultedFlags s.freeCount)
    cycles := Config.faultedCycles s.freeCount
    fault := some e
    log := (Config.faultedLog s.freeCount).map Event.unhandledOpcode
    run := .faulted
    mem := memOfCells (Config.faultedCells s.freeCount)
    freeCount := s.freeCount + 1
    hostQueue := s.hostQueue
    hostReply := some (.memOutOfRange (fatalAddr e))
    hostError := s.hostError }

/-- The end of an instruction that started in `s`: its last state, or the fatal fault its raise takes the block to
(00_scope.md R14, R15; 41_dispatch_fsm.md R104). -/
def conclude (s : State) : Except FatalError State → Host.Outcome State Fault Refusal
  | .ok t => .next t
  | .error e => .next (takeFault e s)

end Sys2Proof.Machine
end

