-- ==== Sys2Proof/Machine/Operands.lean ====
section
/-! DEFINITION. The addressing-mode resolver (spec 40_fetch_and_addressing.md R85 to R89). Each mode takes the operand
the decoder read and the state after the opcode fetch, and makes the fetches' advances and its own accesses and charges. -/

namespace Sys2Proof.Machine

/-- Immediate: the byte after the opcode as it stands; 1 cycle (R85). -/
def resolveImmediate (imm : Byte) (s : State) : Except FatalError (Byte × State) := .ok (imm, advance s)

/-- The effective address of zero-page mode (R86). -/
def zeroPageAddr (zp : Byte) : Word := zext16 zp

/-- Zero page: the byte at `zext_16(zp)`; 2 cycles (R86). -/
def resolveZeroPage (zp : Byte) (s : State) : Except FatalError (Byte × State) :=
  readByte (zeroPageAddr zp) (advance s)

/-- The effective address of zero-page,X mode, inside the zero page (R87, decision D6). -/
def zeroPageXAddr (zp x : Byte) : Word := zext16 (idx8 zp x)

/-- Zero page,X: one cycle for the index addition, then the byte there; 3 cycles (R87, decisions D6 and D7). -/
def resolveZeroPageX (zp : Byte) (s : State) : Except FatalError (Byte × State) :=
  readByte (zeroPageXAddr zp s.x) (charge 1 (advance s))

/-- Absolute: the 16-bit value of the two bytes after the opcode; 2 cycles, no data read (R88). -/
def resolveAbsolute (target : Word) (s : State) : Except FatalError (Word × State) :=
  .ok (target, advance (advance s))

end Sys2Proof.Machine
end

