-- ==== Sys2Proof/Machine/Load.lean ====
section
/-! DEFINITION. The load-accumulator family LDA (spec 42_load.md). Each meaning is the whole instruction, opcode fetch
included (41_dispatch_fsm.md R102). -/

namespace Sys2Proof.Machine

/-- The common end of the family: `A <- v`, then Zero and Negative from it (R123, 10_state.md R29). -/
def loadA (r : Except FatalError (Byte × State)) : Except FatalError State :=
  match r with
  | .error e => .error e
  | .ok (v, s) => .ok { s with a := v, p := setZN v s.p }

/-- `LDA #$nn` (R120). -/
def execLdaImm (imm : Byte) (s : State) : Host.Outcome State Fault Refusal :=
  conclude s (loadA (resolveImmediate imm (advance s)))

/-- `LDA $nn` (R121). -/
def execLdaZp (zp : Byte) (s : State) : Host.Outcome State Fault Refusal :=
  conclude s (loadA (resolveZeroPage zp (advance s)))

/-- `LDA $nn,X` (R122). -/
def execLdaZpx (zp : Byte) (s : State) : Host.Outcome State Fault Refusal :=
  conclude s (loadA (resolveZeroPageX zp (advance s)))

end Sys2Proof.Machine
end

