-- ==== Sys2Proof/Machine/Subroutine.lean ====
section
/-! DEFINITION. Jump to subroutine JSR (spec 43_subroutine.md R130): the reference behaviour, which is not the
MOS 6502's push (90_conflicts.md C4, decision D10). -/

namespace Sys2Proof.Machine

/-- The return address: `(PC - 1) mod 2^16` with `PC` past the operand bytes (R130, R132). -/
def returnAddress (s : State) : Word := dec16 s.pc

/-- R130 once the target is fetched: the push at `SP`, `SP <- SP + 1`, the internal cycle, `PC <- target`. -/
def callTo (target : Word) (s : State) : Except FatalError State :=
  match writeWord s.sp (returnAddress s) s with
  | .error e => .error e
  | .ok s1 => .ok { charge 1 { s1 with sp := inc16 s1.sp } with pc := target }

/-- `JSR $hhll` (R130), opcode fetch included. -/
def execJsrAbs (target : Word) (s : State) : Host.Outcome State Fault Refusal :=
  match resolveAbsolute target (advance s) with
  | .error e => conclude s (.error e)
  | .ok (t, s1) => conclude s (callTo t s1)

end Sys2Proof.Machine
end

