-- ==== Sys2Proof/Machine/Unhandled.lean ====
section
/-! DEFINITION. The default handler for unmapped opcodes (spec 44_unhandled.md R140): it reports and goes on; never a
fault, a halt or a refusal (R142). -/

namespace Sys2Proof.Machine

/-- Any unmapped opcode `op`: the opcode fetch and one report (R140). -/
def execUnhandled (op : Byte) (s : State) : Host.Outcome State Fault Refusal :=
  .next (report op (advance s))

end Sys2Proof.Machine
end

