-- ==== Sys2Proof/Machine/Dispatch.lean ====
section
/-! DEFINITION. The dispatch of a decoded instruction to its handler (spec 41_dispatch_fsm.md R102, R105). -/

namespace Sys2Proof.Machine

def exec (i : Instr) (s : State) : Host.Outcome State Fault Refusal :=
  match i with
  | .ldaImm imm => Sys2Proof.Machine.execLdaImm imm s
  | .ldaZp zp => Sys2Proof.Machine.execLdaZp zp s
  | .ldaZpx zp => Sys2Proof.Machine.execLdaZpx zp s
  | .jsrAbs target => Sys2Proof.Machine.execJsrAbs target s
  | .unhandled op => Sys2Proof.Machine.execUnhandled op s

end Sys2Proof.Machine
end

