-- ==== Sys2Proof/Machine/HostOps.lean ====
section
/-! DEFINITION. The host's side (spec 70_reset_and_hazards.md R180 to R190): reset, memory access, execute, the state
read, and the launch states (R187). -/

namespace Sys2Proof.Machine

/-- `require run = Idle` (41_dispatch_fsm.md R100, R180; R188: "Every host operation is allowed only when `run = Idle`").
A Faulted block has no step at all (60_exceptions.md R152); a Running one blocks the host (log 18). -/
def requireIdle (s : State) (answer : Host.Outcome State Fault Refusal) : Host.Outcome State Fault Refusal :=
  match s.run with
  | .idle => answer
  | .running => .refused .hostBlocked
  | .faulted => .fault (.blockFaulted s.fault)

/-- What `reset()` does to an Idle block (R180): the reset value of every register, flag and the counter, and the memory cleared; `fault`, the log
and `run` keep what they hold. It also clears the model's note of a failed host access: what follows a reset is a launch
state (R187; log 7). -/
def hostReset (s : State) : State :=
  { s with
    pc := Config.resetPC, sp := Config.resetSP, a := 0x00#8, x := 0x00#8, y := 0x00#8, p := Flags.clear, cycles := 0,
    mem := memInit, hostReply := some .done, hostError := none }

/-- A host memory access that was out of range: the host gets the error, the block's state and `fault` stay (R186). -/
def hostFails (e : FatalError) (s : State) : State :=
  { s with hostReply := some (.memOutOfRange (fatalAddr e)), hostError := some (fatalAddr e) }

/-- What a host memory write does (R186, R188). -/
def hostMemWrite (addr : Nat) (v : Byte) (s : State) : State :=
  match memWrite s.mem addr v with
  | .ok m => { s with mem := m, hostReply := some .done }
  | .error e => hostFails e s

/-- What a host memory read does (R188). -/
def hostMemRead (addr : Nat) (s : State) : State :=
  match memRead s.mem addr with
  | .ok v => { s with hostReply := some (.byte v) }
  | .error e => hostFails e s

/-- What a state read gives (R188): the port `host.state` (R190). -/
def hostView (s : State) : HostView :=
  { pc := s.pc, sp := s.sp, a := s.a, x := s.x, y := s.y, p := s.p, cycles := s.cycles, fault := s.fault, log := s.log,
    run := s.run }

/-- A host state read (R188): the block does nothing. -/
def hostReadState (s : State) : State := { s with hostReply := some (.state (hostView s)) }

/-- `execute(budget)` begins (41_dispatch_fsm.md R100), on an Idle block only: the counter is loaded and `run <- Running`; the host is blocked
and has no reply yet. After a failed host access it is no launch the spec describes (R186, decision D24). -/
def hostExecute (budget : Int) (s : State) : Host.Outcome State Fault Refusal :=
  requireIdle s
    (match s.hostError with
    | some addr => .refused (.launchAfterHostError addr)
    | none => .next { s with cycles := budget, run := .running, hostReply := none })

/-- Execute returns (41_dispatch_fsm.md R100, R103): `run <- Idle`, and the host has control again. -/
def executeReturn (s : State) : State := { s with run := .idle, hostReply := some .done }

/-- One request of the host (R188): each requires an Idle block, but for the state read, which a Faulted block still
serves. -/
def hostServe (op : HostOp) (s : State) : Host.Outcome State Fault Refusal :=
  match op with
  | .reset => requireIdle s (.next (hostReset s))
  | .memWrite addr v => requireIdle s (.next (hostMemWrite addr v s))
  | .memRead addr => requireIdle s (.next (hostMemRead addr s))
  | .execute budget => hostExecute budget s
  | .readState =>
    match s.run with
    | .idle => .next (hostReadState s)
    | .running => .refused .hostBlocked
    | .faulted => .next (hostReadState s)

/-- An explicit full starting state of the host (R187, decision D18): every register, flag and memory byte given a value,
`fault = none`, `run = Idle`. The rest is as reset leaves it (95_test_vectors.md, notation `S`; log 14). -/
def explicitStart (pc sp : Word) (a x y : Byte) (p : Flags) (cells : List (Nat × Byte)) : State :=
  { State.reset with pc := pc, sp := sp, a := a, x := x, y := y, p := p, mem := memOfCells cells }

end Sys2Proof.Machine
end

