-- ==== Sys2Proof/Machine/Fetch.lean ====
section
/-! DEFINITION. Fetching the instruction at the program counter, and what a step does in each position of the dispatch
FSM (spec 41_dispatch_fsm.md R100 to R103). Step.lean only calls these. -/

namespace Sys2Proof.Machine

/-- The byte `k` places after `PC`, with `PC` advanced modulo 2^16 as `k` fetches advance it (R80, decision D5). -/
def byteAtPC (s : State) (k : Nat) : Byte := memByte s.mem (s.pc + BitVec.ofNat 16 k).toNat

/-- The three bytes (the longest instruction) at the program counter, the opcode first (30_encoding.md R60). A read has
no side effect (20_memory.md R41), so the bytes a shorter form does not take are not observable. -/
def fetchWindow (s : State) : List Byte := [byteAtPC s 0, byteAtPC s 1, byteAtPC s 2]

/-- The instruction at the program counter, read from memory at the moment of the fetch (20_memory.md R58). -/
def instrAtPC (s : State) : Instr := instrOf (byteAtPC s 0) (byteAtPC s 1) (byteAtPC s 2)

/-- Running: one whole instruction while the budget is strictly positive, otherwise execute returns (R100, R101, R103). -/
def stepRunning (s : State) : Host.Outcome State Fault Refusal :=
  if 0 < s.cycles then exec (instrAtPC s) s else .next (executeReturn s)

/-- Idle: the host's next request is served; with none the block makes no access and keeps all its state
(R103, 60_exceptions.md R168). -/
def stepIdle (s : State) : Host.Outcome State Fault Refusal :=
  match s.hostQueue with
  | [] => .next s
  | op :: rest => hostServe op { s with hostQueue := rest }

/-- Faulted: the block has no step (R103, 60_exceptions.md R152; log 6); of the host's requests only a state read is
served (70_reset_and_hazards.md R188). -/
def stepFaulted (s : State) : Host.Outcome State Fault Refusal :=
  match s.hostQueue with
  | [] => .fault (.blockFaulted s.fault)
  | op :: rest => hostServe op { s with hostQueue := rest }

/-- The bytes of a list put at an address and the ones after it, modulo 2^16. -/
def placeBytes (m : Memory) (pc : Word) : List Byte → Memory
  | [] => m
  | b :: bs => placeBytes (memPut m pc.toNat b) (inc16 pc) bs

/-- The state with a table word at `PC` and an execute in progress: the position the host's memory writes and its
`execute(1)` lead to (70_reset_and_hazards.md R185, 60_exceptions.md R167; log 2). -/
def placeFetchWord (s : State) (nbits w : Nat) : State :=
  { s with
    mem := placeBytes s.mem s.pc (tableBytes nbits w)
    run := .running
    cycles := if 0 < s.cycles then s.cycles else 1 }

end Sys2Proof.Machine
end

