-- ==== Sys2Proof/Machine/Step.lean ====
section
/-! DEFINITION. One step of the machine (spec 41_dispatch_fsm.md R103): one whole instruction, the return of execute, or
one request of the host (decision D1; log 1). -/

namespace Sys2Proof.Machine

/-- One step, by the position of the dispatch FSM. -/
def step (s : State) : Host.Outcome State Fault Refusal :=
  match s.run with
  | .idle => stepIdle s
  | .running => stepRunning s
  | .faulted => stepFaulted s

/-- The state with the instruction `w` placed where `step` fetches its next instruction, inside an execute. -/
def State.withFetchWord (s : State) (nbits w : Nat) : State := placeFetchWord s nbits w

end Sys2Proof.Machine
end

