-- ==== Sys2Proof/Machine/Execute.lean ====
section
/-! DEFINITION. The spec's own pseudocode, beside the step: `executeOne` fetch by fetch (41_dispatch_fsm.md R102, with
the handlers of R120 to R122, R130, R140), and `execute(budget)` as one whole call (R100). -/

namespace Sys2Proof.Machine

/-- `ldaImm()` after the opcode fetch (42_load.md R120). -/
def pseudoLdaImm (s : State) : Except FatalError State := loadA (fetchByte s)

/-- `ldaZp()` after the opcode fetch (42_load.md R121). -/
def pseudoLdaZp (s : State) : Except FatalError State :=
  match fetchByte s with
  | .error e => .error e
  | .ok (zp, s1) => loadA (readByte (zeroPageAddr zp) s1)

/-- `ldaZpx()` after the opcode fetch (42_load.md R122). -/
def pseudoLdaZpx (s : State) : Except FatalError State :=
  match fetchByte s with
  | .error e => .error e
  | .ok (zp, s1) => loadA (readByte (zeroPageXAddr zp s1.x) (charge 1 s1))

/-- `jsrAbs()` after the opcode fetch (43_subroutine.md R130). -/
def pseudoJsrAbs (s : State) : Except FatalError State :=
  match fetchAbsoluteAddress s with
  | .error e => .error e
  | .ok (target, s1) => callTo target s1

/-- `executeOne()`: one opcode fetch, one table lookup, one handler (R102). -/
def executeOne (s : State) : Except FatalError State :=
  match fetchByte s with
  | .error e => .error e
  | .ok (op, s1) =>
    match lookup op with
    | none => .ok (report op s1)
    | some r =>
      match r.handler with
      | .ldaImm => pseudoLdaImm s1
      | .ldaZp => pseudoLdaZp s1
      | .ldaZpx => pseudoLdaZpx s1
      | .jsrAbs => pseudoJsrAbs s1

/-- Steps while the block is Running, at most `fuel` of them. -/
def runWhileRunning : Nat → State → Host.Outcome State Fault Refusal
  | 0, s => .next s
  | fuel + 1, s =>
    if s.run = .running then
      match step s with
      | .next t => runWhileRunning fuel t
      | .fault r => .fault r
      | .refused r => .refused r
    else .next s

/-- `execute(budget)` as one call (R100), which requires an Idle block. Every instruction charges at least 1 cycle, so
`max(budget, 0)` instructions and the return are all there can be (R111). -/
def execute (budget : Int) (s : State) : Host.Outcome State Fault Refusal :=
  match hostExecute budget s with
  | .next t => runWhileRunning (budget.toNat + 1) t
  | .fault r => .fault r
  | .refused r => .refused r

end Sys2Proof.Machine
end

