-- ==== Sys2Proof/Safety.lean ====
section
/-! DEFINITION. What counts as a launch, a normal end and a good state, in the terms claims use (spec
70_reset_and_hazards.md R187 and R191, 10_state.md R34 to R36, 20_memory.md R40). -/

namespace Sys2Proof.Machine

/-- A launch state (R187): `run = Idle` and `fault = none`, and no host access has failed since the last reset (R186). -/
abbrev State.IsLaunch (s : State) : Prop := s.run = .idle ∧ s.fault = none ∧ s.hostError = none

/-- A normal end of an execute (R191): `run` is back at `Idle` with no budget left. "A faulted state is never a normal
end", so `fault` is none. -/
abbrev State.NormalEnd (s : State) : Prop := s.run = .idle ∧ s.fault = none ∧ s.cycles ≤ 0

/-- No opcode was unhandled so far: the premise R142 offers to claims about a program. -/
abbrev State.NothingUnhandled (s : State) : Prop := s.log = []

/-- The good states: the memory in canonical form; `fault` is none exactly when the block is not Faulted (R34, R36); a
recorded address is out of range (R34); and no execute is in progress after a failed host access (R186). -/
abbrev State.Good (s : State) : Prop :=
  s.mem.wf = true ∧ (s.run = .faulted ↔ s.fault.isSome = true) ∧
    (∀ e ∈ s.fault, Config.memCapacity ≤ fatalAddr e) ∧ (s.run = .running → s.hostError = none)

/-- One instruction runs: the block is Running with budget left (41_dispatch_fsm.md R101). -/
abbrev State.Ready (s : State) : Prop := s.run = .running ∧ 0 < s.cycles

end Sys2Proof.Machine
end

