-- ==== Sys2Proof/Certificates/Slice0/Obligations.lean ====
section
/-! DEFINITION. The statements for the provers, from the numbered rules of spec/. A statement about what an execute or an
instruction leaves says nothing of a Faulted end but what 60_exceptions.md R153 lets a claim say: `run` and `fault`. -/

open Sys2Proof Sys2Proof.Machine

/-! ## Encoding -/

/-- Words written out from 30_encoding.md (R62, R68, R69) and 95_test_vectors.md (W1, W2, V-LDAZX-2, V-JSR-2,
V-UNH-3). -/
def Obligations.SpecWordsDecodeAsWritten : Prop :=
  decode [0xA9#8, 0x00#8] = .ok (.ldaImm 0x00#8, []) ∧
  decode [0xA5#8, 0x42#8] = .ok (.ldaZp 0x42#8, []) ∧
  decode [0xB5#8, 0xF0#8] = .ok (.ldaZpx 0xF0#8, []) ∧
  decode [0x20#8, 0x34#8, 0x12#8] = .ok (.jsrAbs 0x1234#16, []) ∧
  decode [0xAD#8, 0x34#8, 0x12#8] = .ok (.unhandled 0xAD#8, [0x34#8, 0x12#8])

/-- Every well-formed instruction, at every value of its operands, is decoded from its bytes, and the bytes after it
are left (R60, R61, R64). -/
def Obligations.DecodeOfEncodeIsTheInstruction : Prop :=
  ∀ (i : Instr) (rest : List Byte), i.WellFormed → decode (encode i ++ rest) = .ok (i, rest)

/-- The other direction: what the decoder takes is the encoding of what it gives, which is well formed (R60 to R65).
-/
def Obligations.DecodedBytesAreTheEncoding : Prop :=
  ∀ (bs rest : List Byte) (i : Instr), decode bs = .ok (i, rest) → bs = encode i ++ rest ∧ i.WellFormed

/-- R63: all 8 bits of the opcode decide, every byte value decodes to one of the four rows or to unhandled, and
nothing else is read. -/
def Obligations.EveryOpcodeByteDecodes : Prop :=
  ∀ (op b1 b2 : Byte) (rest : List Byte),
    (op = 0xA9#8 → decode (op :: b1 :: b2 :: rest) = .ok (.ldaImm b1, b2 :: rest)) ∧
    (op = 0xA5#8 → decode (op :: b1 :: b2 :: rest) = .ok (.ldaZp b1, b2 :: rest)) ∧
    (op = 0xB5#8 → decode (op :: b1 :: b2 :: rest) = .ok (.ldaZpx b1, b2 :: rest)) ∧
    (op = 0x20#8 → decode (op :: b1 :: b2 :: rest) = .ok (.jsrAbs (wordOf b2 b1), rest)) ∧
    (op ≠ 0xA9#8 → op ≠ 0xA5#8 → op ≠ 0xB5#8 → op ≠ 0x20#8 →
      decode (op :: b1 :: b2 :: rest) = .ok (.unhandled op, b1 :: b2 :: rest))

/-- The instruction placed by withFetchWord is the one the next step runs (the model's own interface, log 2). -/
def Obligations.PlacedTableWordIsWhatStepRuns : Prop :=
  ∀ (s : State) (nbits w : Nat) (i : Instr), decodeTableWord nbits w = some i →
    step (s.withFetchWord nbits w) = exec i (s.withFetchWord nbits w)

/-! ## The LDA family -/

/-- R120 (decision D5) with the charges of R107: the whole next state of LDA immediate. -/
def Obligations.LdaImmediateResult : Prop :=
  ∀ (imm : Byte) (s : State),
    exec (.ldaImm imm) s = .next { s with
      a := imm
      p := { s.p with z := imm == 0x00#8, n := imm.getLsbD 7 }
      pc := s.pc + 2#16
      cycles := s.cycles - 2 }

/-- R121 whole: encoding, 2 bytes, 3 cycles, the byte at `zext_16(zp)` into A with its flags, nothing else written, no
exception. -/
def Obligations.LdaZeroPageResult : Prop :=
  ∀ (zp : Byte) (s : State),
    decode [0xA5#8, zp] = .ok (.ldaZp zp, []) ∧
    exec (.ldaZp zp) s = .next { s with
      a := memByte s.mem zp.toNat
      p := { s.p with z := memByte s.mem zp.toNat == 0x00#8, n := (memByte s.mem zp.toNat).getLsbD 7 }
      pc := s.pc + 2#16
      cycles := s.cycles - 3 }

/-- R122 with decisions D6 and D7: the index addition stays in the zero page, and the total is 4 cycles. -/
def Obligations.LdaZeroPageXResult : Prop :=
  ∀ (zp : Byte) (s : State),
    exec (.ldaZpx zp) s = .next { s with
      a := memByte s.mem ((zp.toNat + s.x.toNat) % 256)
      p := { s.p with
        z := memByte s.mem ((zp.toNat + s.x.toNat) % 256) == 0x00#8
        n := (memByte s.mem ((zp.toNat + s.x.toNat) % 256)).getLsbD 7 }
      pc := s.pc + 2#16
      cycles := s.cycles - 4 }

/-- R123: the properties every LDA form has. -/
def Obligations.LdaFlagsFollowTheAccumulator : Prop :=
  ∀ (i : Instr) (v : Byte) (s t : State), i = .ldaImm v ∨ i = .ldaZp v ∨ i = .ldaZpx v → exec i s = .next t →
    t.p.z = (t.a == 0x00#8) ∧ t.p.n = t.a.getLsbD 7 ∧
    t.p.c = s.p.c ∧ t.p.i = s.p.i ∧ t.p.d = s.p.d ∧ t.p.b = s.p.b ∧ t.p.v = s.p.v ∧
    t.mem = s.mem ∧ t.sp = s.sp ∧ t.x = s.x ∧ t.y = s.y ∧ t.log = s.log

/-- The frame of the three LDA forms: all but A, the flags Z and N, PC and the budget is unchanged, every byte of
memory among it (R28, R120 to R123); of the model's own fields (log 3, log 5, log 7) too. -/
def Obligations.LdaFrame : Prop :=
  ∀ (i : Instr) (v : Byte) (s t : State), i = .ldaImm v ∨ i = .ldaZp v ∨ i = .ldaZpx v → exec i s = .next t →
    t.sp = s.sp ∧ t.x = s.x ∧ t.y = s.y ∧
    t.p.c = s.p.c ∧ t.p.i = s.p.i ∧ t.p.d = s.p.d ∧ t.p.b = s.p.b ∧ t.p.v = s.p.v ∧
    t.fault = s.fault ∧ t.log = s.log ∧ t.run = s.run ∧ t.freeCount = s.freeCount ∧
    t.hostQueue = s.hostQueue ∧ t.hostReply = s.hostReply ∧ t.hostError = s.hostError ∧
    ∀ addr : Nat, memByte t.mem addr = memByte s.mem addr

/-! ## JSR -/

/-- R130 (decisions D4, D5, D8, D10) with the charges of R107, where the push fits: the whole next state. `s.pc + 2`
is the address of the last byte of the instruction (R132). -/
def Obligations.JsrResult : Prop :=
  ∀ (target : Word) (s : State), s.sp ≠ 0xFFFF#16 →
    exec (.jsrAbs target) s = .next { s with
      pc := target
      sp := s.sp + 1#16
      cycles := s.cycles - 6
      mem := memPut (memPut s.mem s.sp.toNat (lowByte (s.pc + 2#16))) (s.sp.toNat + 1) (highByte (s.pc + 2#16)) }

/-- R131 (its second sentence, and R132, are the spec's own derivations) of a step: PC from the two bytes after the
opcode, SP one up, the return address at the old SP, low byte first. -/
def Obligations.JsrStepJumpsAndStoresReturnAddress : Prop :=
  ∀ s : State, s.Ready → byteAtPC s 0 = 0x20#8 → s.sp ≠ 0xFFFF#16 →
    ∃ t, step s = .next t ∧
      t.pc.toNat = (byteAtPC s 2).toNat * 256 + (byteAtPC s 1).toNat ∧
      t.sp.toNat = s.sp.toNat + 1 ∧
      (memByte t.mem (s.sp.toNat + 1)).toNat * 256 + (memByte t.mem s.sp.toNat).toNat = (s.pc + 2#16).toNat

/-- R130 and R152 (decision D13), where the push does not fit: the fatal fault is taken, with the address 0x10000. The
reply the host gets is the model's own field (log 3). -/
def Obligations.JsrAtTopOfMemoryIsFatal : Prop :=
  ∀ (target : Word) (s : State), s.sp = 0xFFFF#16 →
    ∃ t, exec (.jsrAbs target) s = .next t ∧ t.run = .faulted ∧ t.fault = some (.memOutOfRange 0x10000) ∧
      t.hostReply = some (.memOutOfRange 0x10000)

/-- The frame of JSR (R130; decisions D4, D10) where its push fits: all but PC, SP, the budget and the two stored
bytes is unchanged. Of the fatal form R153 lets no such claim be made. -/
def Obligations.JsrFrame : Prop :=
  ∀ (target : Word) (s t : State), s.sp ≠ 0xFFFF#16 → exec (.jsrAbs target) s = .next t →
    t.a = s.a ∧ t.x = s.x ∧ t.y = s.y ∧ t.p = s.p ∧
    t.fault = s.fault ∧ t.log = s.log ∧ t.run = s.run ∧ t.freeCount = s.freeCount ∧
    t.hostQueue = s.hostQueue ∧ t.hostReply = s.hostReply ∧ t.hostError = s.hostError ∧
    ∀ addr : Nat, addr ≠ (zext17 s.sp).toNat → addr ≠ (inc17 s.sp).toNat → memByte t.mem addr = memByte s.mem addr

/-- R133 (decision D10): a second call writes its low byte over the high byte of the first return address. -/
def Obligations.SecondCallOverwritesFirstReturn : Prop :=
  ∀ (t1 t2 : Word) (s u w : State), s.sp.toNat < 0xFFFE →
    exec (.jsrAbs t1) s = .next u → exec (.jsrAbs t2) u = .next w →
    w.sp.toNat = s.sp.toNat + 2 ∧
    memByte w.mem s.sp.toNat = lowByte (s.pc + 2#16) ∧
    memByte w.mem (s.sp.toNat + 1) = lowByte (t1 + 2#16) ∧
    memByte w.mem (s.sp.toNat + 2) = highByte (t1 + 2#16)

/-- R58 and R135 (the spec's own derivations): a call to the address its own push stores at fetches the stored return
address as the next opcode. -/
def Obligations.PushedBytesAreFetchedAtOnce : Prop :=
  ∀ s t : State, s.sp ≠ 0xFFFF#16 → exec (.jsrAbs s.sp) s = .next t →
    byteAtPC t 0 = lowByte (s.pc + 2#16) ∧ byteAtPC t 1 = highByte (s.pc + 2#16)

/-! ## The default handler -/

/-- R140 with decision D12: the whole next state. For a term that carries one of the four mapped opcodes, which no
bytes decode to, that this is its meaning is the model's own DESIGN CHOICE (log 16). -/
def Obligations.UnhandledResult : Prop :=
  ∀ (op : Byte) (s : State),
    exec (.unhandled op) s = .next { s with
      pc := s.pc + 1#16
      cycles := s.cycles - 1
      log := s.log ++ [.unhandledOpcode op] }

/-- The frame of the default handler (decision D12): all but PC, the budget and the log is unchanged (R140, R141). For
a term that carries one of the four mapped opcodes, which no bytes decode to, it is the model's own DESIGN CHOICE (log
16). -/
def Obligations.UnhandledFrame : Prop :=
  ∀ (op : Byte) (s t : State), exec (.unhandled op) s = .next t →
    t.a = s.a ∧ t.x = s.x ∧ t.y = s.y ∧ t.sp = s.sp ∧ t.p = s.p ∧
    t.fault = s.fault ∧ t.run = s.run ∧ t.freeCount = s.freeCount ∧
    t.hostQueue = s.hostQueue ∧ t.hostReply = s.hostReply ∧ t.hostError = s.hostError ∧
    ∀ addr : Nat, memByte t.mem addr = memByte s.mem addr

/-- R65 and R141: each of the 252 unmapped byte values is reported, changes no register or flag, and the loop goes on
with the budget that remains. -/
def Obligations.UnmappedOpcodeIsReportedAndTheLoopGoesOn : Prop :=
  ∀ s : State, s.Ready → byteAtPC s 0 ∉ [0xA9#8, 0xA5#8, 0xB5#8, 0x20#8] →
    ∃ t, step s = .next t ∧ t.run = .running ∧ t.log = s.log ++ [.unhandledOpcode (byteAtPC s 0)] ∧
      t.a = s.a ∧ t.x = s.x ∧ t.y = s.y ∧ t.sp = s.sp ∧ t.p = s.p ∧ t.mem = s.mem ∧
      (0 < t.cycles → step t = exec (instrAtPC t) t)

/-! ## The execute loop, step by step -/

/-- The bytes at the program counter decode to an instruction, and the step is that instruction's meaning, with
nothing around it (R102). The three addresses wrap at 0xFFFF (decision D5). -/
def Obligations.StepRunsTheDecodedInstruction : Prop :=
  ∀ (s : State) (i : Instr) (rest : List Byte), s.run = .running → 0 < s.cycles →
    decode [memByte s.mem s.pc.toNat, memByte s.mem (s.pc + 1#16).toNat, memByte s.mem (s.pc + 2#16).toNat]
      = .ok (i, rest) →
    step s = exec i s

/-- R101: the test is `cycles > 0`, made before an instruction starts; with `cycles` at 0 or below none starts, and
execute returns to Idle (R100, R103). The host's reply of that return is the model's own DESIGN CHOICE (log 3). -/
def Obligations.BudgetIsTestedBeforeEachInstruction : Prop :=
  ∀ s : State, s.run = .running →
    (0 < s.cycles → step s = exec (instrAtPC s) s) ∧
    (s.cycles ≤ 0 → step s = .next { s with run := .idle, hostReply := some .done })

/-- R102: a step is the spec's executeOne, fetch by fetch: one opcode fetch, one table lookup, one handler. -/
def Obligations.StepIsThePseudocodeExecuteOne : Prop :=
  ∀ s : State, s.Ready → step s = conclude s (executeOne s)

/-- R107 (decisions D7, D8, D12) and R33 (the spec's own derivation): what an instruction charges, and the least the
counter can fall to. -/
def Obligations.StepChargesTheTableTotal : Prop :=
  ∀ s t : State, s.Ready → step s = .next t → t.run ≠ .faulted →
    t.cycles = s.cycles - (cyclesOf (byteAtPC s 0) : Int) ∧ -5 ≤ t.cycles ∧ t.cycles < s.cycles

/-- R33 (decision D11, and the spec's own derivation): in a hardware build of at least `BUDGET_BITS` bits the counter
does not overflow: a budget that fits stays in the two's complement range through every instruction. -/
def Obligations.CounterFitsAHardwareBuild : Prop :=
  ∀ (bits : Nat) (s t : State), Config.minBudgetBits ≤ bits → s.Ready → s.cycles < 2 ^ (bits - 1) →
    step s = .next t → t.run ≠ .faulted → -(2 ^ (bits - 1) : Int) ≤ t.cycles ∧ t.cycles < 2 ^ (bits - 1)

/-- R22 (the spec's own derivation, decision D5): how each instruction moves PC. -/
def Obligations.StepMovesTheProgramCounter : Prop :=
  ∀ s t : State, s.Ready → step s = .next t → t.run ≠ .faulted →
    (byteAtPC s 0 = 0x20#8 → t.pc = wordOf (byteAtPC s 2) (byteAtPC s 1)) ∧
    (byteAtPC s 0 ≠ 0x20#8 → t.pc = s.pc + BitVec.ofNat 16 (lengthOf (byteAtPC s 0)))

/-- R45 (the spec's own derivation): JSR with SP = 0xFFFF is the only operation that raises MemOutOfRange. -/
def Obligations.OnlyACallAtTheTopFaults : Prop :=
  ∀ s t : State, s.Ready → step s = .next t →
    (t.run = .faulted ↔ byteAtPC s 0 = 0x20#8 ∧ s.sp = 0xFFFF#16)

/-! ## Whole-machine rules -/

/-- Inferred from R50: the only write an instruction makes is JSR's, at SP and SP + 1. -/
def Obligations.OnlyCallsWriteMemory : Prop :=
  ∀ (s t : State) (addr : Nat), s.Ready → step s = .next t → t.run ≠ .faulted →
    memByte t.mem addr ≠ memByte s.mem addr →
    byteAtPC s 0 = 0x20#8 ∧ (addr = s.sp.toNat ∨ addr = s.sp.toNat + 1)

/-- Inferred from R25 and R26: no instruction writes X or Y; of all steps only a reset does. -/
def Obligations.OnlyResetWritesXAndY : Prop :=
  ∀ s t : State, step s = .next t → t.run ≠ .faulted → t.x ≠ s.x ∨ t.y ≠ s.y →
    s.run = .idle ∧ ∃ rest, s.hostQueue = .reset :: rest

/-- Inferred from R28: C, I, D, B and V are written by reset only, Z and N by reset and the LDA forms only. -/
def Obligations.FlagWritersAreResetAndLda : Prop :=
  ∀ s t : State, step s = .next t → t.run ≠ .faulted → (s.run = .idle → ∀ rest, s.hostQueue ≠ .reset :: rest) →
    (t.p.c = s.p.c ∧ t.p.i = s.p.i ∧ t.p.d = s.p.d ∧ t.p.b = s.p.b ∧ t.p.v = s.p.v) ∧
    (t.p.z ≠ s.p.z ∨ t.p.n ≠ s.p.n → s.Ready ∧ byteAtPC s 0 ∈ [0xA9#8, 0xA5#8, 0xB5#8])

/-- R35 (decision D28): the log is appended to by the default handler and by nothing else, and reset does not clear
it. -/
def Obligations.OnlyUnhandledOpcodesExtendTheLog : Prop :=
  ∀ s t : State, step s = .next t → t.run ≠ .faulted →
    t.log = s.log ∨
      (s.Ready ∧ byteAtPC s 0 ∉ [0xA9#8, 0xA5#8, 0xB5#8, 0x20#8] ∧
        t.log = s.log ++ [.unhandledOpcode (byteAtPC s 0)])

/-- R23 (decision D3) and R136 (the spec's own derivation): no instruction lowers SP; only a call moves it, by one. -/
def Obligations.StackPointerOnlyRisesByCalls : Prop :=
  ∀ s t : State, s.Ready → step s = .next t → t.run ≠ .faulted →
    t.sp = s.sp ∨ (byteAtPC s 0 = 0x20#8 ∧ t.sp.toNat = s.sp.toNat + 1)

/-- Inferred from R24, R26, R28, R35, R63 and R67: no instruction reads A, Y, a flag or the log, so none of them
steers where a step goes, what it stores, what it charges or whether it faults. -/
def Obligations.AccumulatorYFlagsAndLogSteerNothing : Prop :=
  ∀ (s t : State) (a' y' : Byte) (p' : Flags) (log' : List Event), s.Ready → step s = .next t →
    ∃ t', step { s with a := a', y := y', p := p', log := log' } = .next t' ∧
      t'.run = t.run ∧ t'.fault = t.fault ∧
      (t.run ≠ .faulted →
        t'.pc = t.pc ∧ t'.sp = t.sp ∧ t'.x = t.x ∧ t'.mem = t.mem ∧ t'.cycles = t.cycles)

/-! ## The good states -/

/-- The state right after reset is good. -/
def Obligations.ResetStateIsGood : Prop := State.reset.Good

/-- Inferred (R34, R36, R40, R186; decisions D13 and D24; log 1 to 7): every step, of an instruction, of the loop or
of the host, keeps a good state good. -/
def Obligations.EveryStepKeepsTheStateGood : Prop :=
  ∀ s t : State, s.Good → step s = .next t → t.Good

/-- R34 and R152 (decision D13): a fault is never cleared and the block stays Faulted. -/
def Obligations.FaultIsNeverCleared : Prop :=
  ∀ s t : State, s.Good → s.fault ≠ none → step s = .next t → t.fault = s.fault ∧ t.run = .faulted

/-- R103, R152 and R188 (decision D13): a Faulted block has no step; the host may only read its state. The host's list
and reply are the model's own DESIGN CHOICE (log 3), and the fault's form is log 6. -/
def Obligations.FaultedBlockHasNoStep : Prop :=
  ∀ s : State, s.run = .faulted →
    (∀ rest, s.hostQueue = .readState :: rest →
      step s = .next { s with hostQueue := rest, hostReply := some (.state (hostView s)) }) ∧
    ((∀ rest, s.hostQueue ≠ .readState :: rest) → step s = .fault (.blockFaulted s.fault))

/-! ## Memory -/

/-- R46: a write, then any writes elsewhere, then a read gives the value written; out of range both raise. -/
def Obligations.ReadAfterWriteGivesTheValue : Prop :=
  ∀ (m : Memory) (addr : Nat) (v : Byte),
    (addr < 65536 → ∃ m', memWrite m addr v = .ok m' ∧
      ∀ others : List (Nat × Byte), (∀ c ∈ others, c.1 ≠ addr) →
        memRead (others.foldl (fun m c => memPut m c.1 c.2) m') addr = .ok v) ∧
    (65536 ≤ addr →
      memWrite m addr v = .error (.memOutOfRange addr) ∧ memRead m addr = .error (.memOutOfRange addr))

/-- R44 and R84: the word write, low byte at the address and high byte after it, 2 cycles, every other byte alone; at
0xFFFF it raises with the address 0x10000. -/
def Obligations.WordWriteIsLittleEndianAndExact : Prop :=
  ∀ (addr v : Word) (s : State),
    (addr ≠ 0xFFFF#16 → ∃ m', writeWord addr v s = .ok { s with mem := m', cycles := s.cycles - 2 } ∧
      memByte m' addr.toNat = lowByte v ∧ memByte m' (addr.toNat + 1) = highByte v ∧
      ∀ b : Nat, b ≠ addr.toNat → b ≠ addr.toNat + 1 → memByte m' b = memByte s.mem b) ∧
    (addr = 0xFFFF#16 → writeWord addr v s = .error (.memOutOfRange 0x10000))

/-! ## Reset and the host -/

/-- R183: what reset always yields, whatever the state before it; and the state right after reset holds the same. -/
def Obligations.ResetYieldsItsValuesFromAnyState : Prop :=
  ∀ (s : State) (rest : List HostOp), s.run = .idle → s.hostQueue = .reset :: rest →
    (∃ t, step s = .next t ∧ t.pc = 0xFFFC#16 ∧ t.sp = 0x0100#16 ∧ t.a = 0x00#8 ∧ t.x = 0x00#8 ∧ t.y = 0x00#8 ∧
      t.p = { c := false, z := false, i := false, d := false, b := false, v := false, n := false } ∧
      ∀ addr : Nat, memByte t.mem addr = 0x00#8) ∧
    State.reset.pc = 0xFFFC#16 ∧ State.reset.sp = 0x0100#16 ∧
    State.reset.a = 0x00#8 ∧ State.reset.x = 0x00#8 ∧ State.reset.y = 0x00#8 ∧
    State.reset.p = { c := false, z := false, i := false, d := false, b := false, v := false, n := false } ∧
    ∀ addr : Nat, memByte State.reset.mem addr = 0x00#8

/-- R34 to R36 and R180 (decisions D22, D28): what reset leaves alone, and the counter's value. -/
def Obligations.ResetKeepsLogFaultAndRun : Prop :=
  ∀ (s t : State) (rest : List HostOp), s.run = .idle → s.hostQueue = .reset :: rest → step s = .next t →
    t.log = s.log ∧ t.fault = s.fault ∧ t.run = .idle ∧ t.cycles = 0 ∧ t.hostError = none

/-- R181 (decision D9): the first opcode after reset is the byte at 0xFFFC itself; no vector is read. -/
def Obligations.FirstOpcodeAfterResetIsAtFFFC : Prop :=
  ∀ (m : Memory) (budget : Int), 0 < budget →
    step { State.reset with mem := m, cycles := budget, run := .running } =
      exec (instrOf (memByte m 0xFFFC) (memByte m 0xFFFD) (memByte m 0xFFFE))
        { State.reset with mem := m, cycles := budget, run := .running }

/-- R186 and R188 (decision D24, log 7): a host write or read in range does its access; out of range the host gets the
error and the block's own state and `fault` stay. The host's list and reply are the model's own DESIGN CHOICE (log 3).
-/
def Obligations.HostMemoryAccess : Prop :=
  ∀ (s : State) (addr : Nat) (v : Byte) (rest : List HostOp), s.run = .idle →
    (s.hostQueue = .memWrite addr v :: rest → addr < 65536 →
      step s = .next { s with hostQueue := rest, mem := memPut s.mem addr v, hostReply := some .done }) ∧
    (s.hostQueue = .memRead addr :: rest → addr < 65536 →
      step s = .next { s with hostQueue := rest, hostReply := some (.byte (memByte s.mem addr)) }) ∧
    (s.hostQueue = .memWrite addr v :: rest ∨ s.hostQueue = .memRead addr :: rest → 65536 ≤ addr →
      step s = .next { s with
        hostQueue := rest, hostReply := some (.memOutOfRange addr), hostError := some addr })

/-- R100 and R186 (decision D24, log 7): execute loads the budget and runs; after a failed host access it is refused.
The host's list, and its reply cleared as an execute begins, are the model's own DESIGN CHOICE (log 3). -/
def Obligations.ExecuteRequestLoadsTheBudget : Prop :=
  ∀ (s : State) (budget : Int) (rest : List HostOp), s.run = .idle → s.hostQueue = .execute budget :: rest →
    (s.hostError = none →
      step s = .next { s with hostQueue := rest, cycles := budget, run := .running, hostReply := none }) ∧
    (∀ addr, s.hostError = some addr → step s = .refused (.launchAfterHostError addr))

/-- R187 (decision D18, log 14): an explicit starting state is a good launch state and holds the registers and flags
it was given; a byte in range holds what it was last given, and one that was given nothing reads 0x00. The canonical
form in Good is the model's own DESIGN CHOICE (log 15). -/
def Obligations.ExplicitStartIsAGoodLaunch : Prop :=
  ∀ (pc sp : Word) (a x y : Byte) (p : Flags) (cells : List (Nat × Byte)) (addr : Nat) (v : Byte),
    (explicitStart pc sp a x y p cells).IsLaunch ∧ (explicitStart pc sp a x y p cells).Good ∧
    (explicitStart pc sp a x y p cells).pc = pc ∧ (explicitStart pc sp a x y p cells).sp = sp ∧
    (explicitStart pc sp a x y p cells).a = a ∧ (explicitStart pc sp a x y p cells).x = x ∧
    (explicitStart pc sp a x y p cells).y = y ∧ (explicitStart pc sp a x y p cells).p = p ∧
    (addr < 65536 → ∀ later : List (Nat × Byte), (∀ c ∈ later, c.1 ≠ addr) →
      memByte (explicitStart pc sp a x y p (cells ++ [(addr, v)] ++ later)).mem addr = v) ∧
    ((∀ c ∈ cells, c.1 ≠ addr) → memByte (explicitStart pc sp a x y p cells).mem addr = 0x00#8)

/-- R188 and R190: a state read gives the host the block's state and changes nothing of the block's. The host's list
and reply are the model's own DESIGN CHOICE (log 3). -/
def Obligations.HostReadsTheState : Prop :=
  ∀ (s : State) (rest : List HostOp), s.run ≠ .running → s.hostQueue = .readState :: rest →
    step s = .next { s with
      hostQueue := rest
      hostReply := some (.state
        { pc := s.pc, sp := s.sp, a := s.a, x := s.x, y := s.y, p := s.p, cycles := s.cycles, fault := s.fault,
          log := s.log, run := s.run }) }

/-- R168 (decision D17): an Idle block with no request of the host keeps all its state. -/
def Obligations.IdleBlockKeepsItsState : Prop :=
  ∀ s : State, s.run = .idle → s.hostQueue = [] → step s = .next s

/-- R30 (decision D14): the packed view of the flags. -/
def Obligations.PackedFlagsLayout : Prop :=
  ∀ p : Flags,
    (packFlags p).getLsbD 7 = p.n ∧ (packFlags p).getLsbD 6 = p.v ∧ (packFlags p).getLsbD 5 = false ∧
    (packFlags p).getLsbD 4 = p.b ∧ (packFlags p).getLsbD 3 = p.d ∧ (packFlags p).getLsbD 2 = p.i ∧
    (packFlags p).getLsbD 1 = p.z ∧ (packFlags p).getLsbD 0 = p.c

/-! ## Whole execute calls -/

/-- R110 (the spec's own derivation): with a budget of 0 or below execute runs nothing and returns with that budget.
The host's reply of that return is the model's own DESIGN CHOICE (log 3). -/
def Obligations.ExecuteWithoutBudgetRunsNothing : Prop :=
  ∀ (budget : Int) (s : State), budget ≤ 0 → s.run = .idle → s.hostError = none →
    execute budget s = .next { s with cycles := budget, hostReply := some .done }

/-- R109: a budget exactly equal to one instruction's documented cost (decisions D7, D8, D12) runs that instruction
and is used up exactly. A JSR whose push does not fit has no such end (R191): ExecuteOfACallAtTheTopEndsFaulted says
what it does. The host's reply is the model's own DESIGN CHOICE (log 3). -/
def Obligations.ExactBudgetRunsOneInstruction : Prop :=
  ∀ s : State, s.IsLaunch → (byteAtPC s 0 = 0x20#8 → s.sp ≠ 0xFFFF#16) →
    ∃ u, exec (instrAtPC s)
        { s with cycles := (cyclesOf (byteAtPC s 0) : Int), run := .running, hostReply := none } = .next u ∧
      u.cycles = 0 ∧
      execute (cyclesOf (byteAtPC s 0) : Int) s = .next { u with run := .idle, hostReply := some .done }

/-- R167 (the spec's own derivation): execute(1) runs exactly one instruction. The host's reply is the model's own
DESIGN CHOICE (log 3). -/
def Obligations.ExecuteOneSingleSteps : Prop :=
  ∀ s u : State, s.IsLaunch →
    exec (instrAtPC s) { s with cycles := 1, run := .running, hostReply := none } = .next u →
    (u.run = .running → execute 1 s = .next { u with run := .idle, hostReply := some .done }) ∧
    (u.run = .faulted → execute 1 s = .next u)

/-- R111 (the spec's own derivation) and R191: from a launch state execute always ends, normally or in the fatal
fault, within `max(budget, 0)` instructions and its return. -/
def Obligations.ExecuteAlwaysEnds : Prop :=
  ∀ (budget : Int) (s : State), s.IsLaunch →
    ∃ t, execute budget s = .next t ∧ (t.NormalEnd ∨ (t.run = .faulted ∧ t.fault = some (.memOutOfRange 0x10000)))

/-- R108 (its bound is the spec's own derivation): the budget is overshot by less than the dearest instruction. -/
def Obligations.OvershootIsLessThanOneInstruction : Prop :=
  ∀ (budget : Int) (s t : State), s.run = .idle → 0 < budget → execute budget s = .next t → t.run = .idle →
    -5 ≤ t.cycles ∧ t.cycles ≤ 0

/-- Inferred from R100, R103 and R188 (log 1, log 3): the host's request execute(budget), taken step by step through
the host's own interface, is the whole call of R100. -/
def Obligations.SteppedExecuteIsTheWholeCall : Prop :=
  ∀ (budget : Int) (s : State) (rest : List HostOp),
    s.run = .idle → s.hostError = none → s.hostQueue = .execute budget :: rest →
    ∃ k : Nat, k ≤ budget.toNat + 2 ∧ Host.Core.run Sys2Proof.core k s = execute budget { s with hostQueue := rest }

/-- R112 (decision D26): execute calls compose. Where a first call ends, a second call resumes, so that a budget split
in two ends where one call would: in the same state if it ends normally, in the same fault if it ends in one. -/
def Obligations.SplitBudgetsCompose : Prop :=
  ∀ (b1 b2 : Int) (s t u : State), s.run = .idle → 0 ≤ b2 → execute b1 s = .next t → t.run = .idle →
    execute (t.cycles + b2) t = .next u →
    ∃ w, execute (b1 + b2) s = .next w ∧ w.run = u.run ∧ w.fault = u.fault ∧ (u.run = .idle → w = u)

/-- R100, R152 and R188 (decision D13): execute and every other host operation but the state read require an Idle block:
on a Faulted one there is no step, and a Running one blocks the host, whose refusal is the model's own name for it
(log 18). -/
def Obligations.HostOperationsRequireAnIdleBlock : Prop :=
  ∀ (s : State) (op : HostOp) (budget : Int),
    (s.run = .faulted → op ≠ .readState →
      hostServe op s = .fault (.blockFaulted s.fault) ∧ execute budget s = .fault (.blockFaulted s.fault)) ∧
    (s.run = .running → hostServe op s = .refused .hostBlocked ∧ execute budget s = .refused .hostBlocked)

/-- R130, R152 and R191 (decision D13): from a launch state with any budget left, execute of a JSR whose push does not
fit ends Faulted with the address 0x10000, and no step follows. -/
def Obligations.ExecuteOfACallAtTheTopEndsFaulted : Prop :=
  ∀ (budget : Int) (s : State), s.IsLaunch → 0 < budget → byteAtPC s 0 = 0x20#8 → s.sp = 0xFFFF#16 →
    ∃ u, execute budget s = .next u ∧ u.run = .faulted ∧ u.fault = some (.memOutOfRange 0x10000) ∧
      ∀ again : Int, execute again u = .fault (.blockFaulted (some (.memOutOfRange 0x10000)))
end

