-- ==== Sys2Proof/Laws/Decode.lean ====
section
/-! SUPPORT. What the opcode table, the decoder's total function and the byte helpers do (spec 30_encoding.md R61 to
R65). -/

namespace Sys2Proof

/-- No two rows of the opcode table overlap (R62). -/
theorem opcodeTable_opcodes_nodup : (opcodeTable.map Row.opcode).Pairwise (· ≠ ·) := by decide

/-- The table's opcodes are the four the well-formedness check names. -/
theorem opcodeTable_opcodes : opcodeTable.map Row.opcode = mappedOpcodes := rfl

/-- The value of `{hi, lo}` (R10). -/
theorem wordOf_toNat (hi lo : Byte) : (wordOf hi lo).toNat = hi.toNat * 256 + lo.toNat := by
  have h := hi.isLt
  have l := lo.isLt
  simp [wordOf]
  omega

theorem lowByte_toNat (v : Word) : (lowByte v).toNat = v.toNat % 256 := by simp [lowByte]

theorem highByte_toNat (v : Word) : (highByte v).toNat = v.toNat / 256 := by
  have h := v.isLt
  simp [highByte, Nat.shiftRight_eq_div_pow]
  omega

@[simp] theorem lowByte_wordOf (hi lo : Byte) : lowByte (wordOf hi lo) = lo := by
  have l := lo.isLt
  refine BitVec.eq_of_toNat_eq ?_
  rw [lowByte_toNat, wordOf_toNat]
  omega

@[simp] theorem highByte_wordOf (hi lo : Byte) : highByte (wordOf hi lo) = hi := by
  have l := lo.isLt
  refine BitVec.eq_of_toNat_eq ?_
  rw [highByte_toNat, wordOf_toNat]
  omega

@[simp] theorem wordOf_highByte_lowByte (v : Word) : wordOf (highByte v) (lowByte v) = v := by
  refine BitVec.eq_of_toNat_eq ?_
  rw [wordOf_toNat, highByte_toNat, lowByte_toNat]
  omega

/-- The five cases of decoding an opcode byte (R63). -/
theorem instrOf_cases (op b1 b2 : Byte) :
    (op = 0xA9#8 ∧ instrOf op b1 b2 = .ldaImm b1) ∨ (op = 0xA5#8 ∧ instrOf op b1 b2 = .ldaZp b1) ∨
      (op = 0xB5#8 ∧ instrOf op b1 b2 = .ldaZpx b1) ∨ (op = 0x20#8 ∧ instrOf op b1 b2 = .jsrAbs (wordOf b2 b1)) ∨
        (op ∉ mappedOpcodes ∧ instrOf op b1 b2 = .unhandled op) := by
  by_cases h1 : op = 0xA9#8
  · subst h1; exact .inl ⟨rfl, rfl⟩
  by_cases h2 : op = 0xA5#8
  · subst h2; exact .inr (.inl ⟨rfl, rfl⟩)
  by_cases h3 : op = 0xB5#8
  · subst h3; exact .inr (.inr (.inl ⟨rfl, rfl⟩))
  by_cases h4 : op = 0x20#8
  · subst h4; exact .inr (.inr (.inr (.inl ⟨rfl, rfl⟩)))
  refine .inr (.inr (.inr (.inr ⟨by simp [mappedOpcodes, h1, h2, h3, h4], ?_⟩)))
  have hl : lookup op = none := by
    simp [lookup, opcodeTable, Ne.symm h1, Ne.symm h2, Ne.symm h3, Ne.symm h4]
  simp [instrOf, hl]

/-- Decoding a list that has an opcode. -/
theorem decode_cons (op : Byte) (rest : List Byte) :
    decode (op :: rest) =
      if rest.length + 1 < lengthOf op then .error (.truncated op (lengthOf op - 1) rest.length)
      else .ok (instrOf op (rest.getD 0 0#8) (rest.getD 1 0#8), rest.drop (lengthOf op - 1)) := rfl

/-- An opcode outside the table looks up nothing (R65). -/
theorem lookup_of_not_mapped {op : Byte} (h : op ∉ mappedOpcodes) : lookup op = none := by
  simp [mappedOpcodes] at h
  obtain ⟨h1, h2, h3, h4⟩ := h
  simp [lookup, opcodeTable, Ne.symm h1, Ne.symm h2, Ne.symm h3, Ne.symm h4]

end Sys2Proof
end

