-- ==== Sys2Proof/Laws/Memory.lean ====
section
/-! SUPPORT. What the memory operations do: a read after a write, every other byte alone, and the canonical form kept
(spec 20_memory.md R41 to R47). -/

namespace Sys2Proof.Machine

/-! ## One byte -/

@[simp] theorem memByte_nil (addr : Nat) : memByte [] addr = 0x00#8 := rfl

theorem memByte_cons (c : Host.Cell) (m : Memory) (addr : Nat) :
    memByte (c :: m) addr = if c.1 = addr then c.2 else memByte m addr := rfl

theorem memByte_memDrop_self (m : Memory) (addr : Nat) : memByte (memDrop m addr) addr = 0x00#8 := by
  induction m with
  | nil => rfl
  | cons c m ih =>
    by_cases h : c.1 = addr
    · simpa [memDrop, h] using ih
    · simpa [memDrop, h, memByte_cons] using ih

theorem memByte_memDrop_of_ne (m : Memory) {addr b : Nat} (hb : b ≠ addr) :
    memByte (memDrop m addr) b = memByte m b := by
  induction m with
  | nil => rfl
  | cons c m ih =>
    by_cases h : c.1 = addr
    · have hc : c.1 ≠ b := fun hcb => hb (hcb.symm.trans h)
      simpa [memDrop, h, memByte_cons, hc, hb.symm] using ih
    · have ih' : memByte (List.filter (fun c => c.1 != addr) m) b = memByte m b := ih
      simp [memDrop, h, memByte_cons, ih']

theorem memByte_memInsert_self {m : Memory} {addr : Nat} (v : Byte) (hm : ∀ c ∈ m, c.1 ≠ addr) :
    memByte (memInsert addr v m) addr = v := by
  induction m with
  | nil => simp [memInsert, memByte_cons]
  | cons c m ih =>
    have hc : c.1 ≠ addr := hm c (by simp)
    have ih' := ih fun d hd => hm d (by simp [hd])
    unfold memInsert
    split <;> simp [memByte_cons, hc, ih']

theorem memByte_memInsert_of_ne (m : Memory) {addr b : Nat} (v : Byte) (hb : b ≠ addr) :
    memByte (memInsert addr v m) b = memByte m b := by
  induction m with
  | nil => simp [memInsert, memByte_cons, hb.symm]
  | cons c m ih =>
    unfold memInsert
    split <;> simp [memByte_cons, hb.symm, ih]

theorem ne_of_mem_memDrop {m : Memory} {addr : Nat} {c : Host.Cell} (hc : c ∈ memDrop m addr) : c.1 ≠ addr := by
  simpa using (List.mem_filter.mp hc).2

/-- A read after a write to the same address gives the byte written. -/
@[simp] theorem memByte_memPut_self (m : Memory) (addr : Nat) (v : Byte) : memByte (memPut m addr v) addr = v := by
  unfold memPut
  split
  · next hv => rw [memByte_memDrop_self, hv]
  · exact memByte_memInsert_self v fun c hc => ne_of_mem_memDrop hc

/-- A write leaves every other byte alone. -/
theorem memByte_memPut_of_ne (m : Memory) {addr b : Nat} (v : Byte) (hb : b ≠ addr) :
    memByte (memPut m addr v) b = memByte m b := by
  unfold memPut
  split
  · exact memByte_memDrop_of_ne m hb
  · rw [memByte_memInsert_of_ne _ v hb, memByte_memDrop_of_ne m hb]

/-- Both at once: what any byte reads as after a write. -/
theorem memByte_memPut (m : Memory) (addr b : Nat) (v : Byte) :
    memByte (memPut m addr v) b = if b = addr then v else memByte m b := by
  split
  · next h => subst h; simp
  · next h => exact memByte_memPut_of_ne m v h

/-! ## The canonical form -/

theorem memWfFrom_cons (lo : Nat) (c : Host.Cell) (m : Memory) :
    memWfFrom lo (c :: m) = true ↔
      lo ≤ c.1 ∧ c.1 < Config.memCapacity ∧ c.2 ≠ 0x00#8 ∧ memWfFrom (c.1 + 1) m = true := by
  simp [memWfFrom, and_assoc]

theorem memWfFrom_mono {m : Memory} {lo lo' : Nat} (hlo : lo' ≤ lo) (h : memWfFrom lo m = true) :
    memWfFrom lo' m = true := by
  cases m with
  | nil => rfl
  | cons c m =>
    rw [memWfFrom_cons] at h ⊢
    exact ⟨hlo.trans h.1, h.2⟩

theorem memWfFrom_memDrop {m : Memory} {lo : Nat} (addr : Nat) (h : memWfFrom lo m = true) :
    memWfFrom lo (memDrop m addr) = true := by
  induction m generalizing lo with
  | nil => rfl
  | cons c m ih =>
    rw [memWfFrom_cons] at h
    by_cases hc : c.1 = addr
    · have h' : memWfFrom lo (memDrop m addr) = true := memWfFrom_mono (by omega) (ih h.2.2.2)
      simpa [memDrop, hc] using h'
    · have h' : memWfFrom (c.1 + 1) (List.filter (fun c => c.1 != addr) m) = true := ih h.2.2.2
      simp [memDrop, hc, memWfFrom_cons, h.1, h.2.1, h.2.2.1, h']

theorem memWfFrom_memInsert {m : Memory} {lo addr : Nat} {v : Byte} (hlo : lo ≤ addr) (ha : addr < Config.memCapacity)
    (hv : v ≠ 0x00#8) (hm : ∀ c ∈ m, c.1 ≠ addr) (h : memWfFrom lo m = true) :
    memWfFrom lo (memInsert addr v m) = true := by
  induction m generalizing lo with
  | nil => simp [memInsert, memWfFrom, hlo, ha, hv]
  | cons c m ih =>
    have hne : c.1 ≠ addr := hm c (by simp)
    rw [memWfFrom_cons] at h
    unfold memInsert
    split
    · next hlt =>
      rw [memWfFrom_cons, memWfFrom_cons]
      exact ⟨hlo, ha, hv, hlt, h.2.1, h.2.2.1, h.2.2.2⟩
    · next hge =>
      rw [memWfFrom_cons]
      exact ⟨h.1, h.2.1, h.2.2.1, ih (by omega) (fun d hd => hm d (by simp [hd])) h.2.2.2⟩

/-- A write inside the memory keeps the canonical form. -/
theorem memPut_wf {m : Memory} {addr : Nat} (v : Byte) (ha : addr < Config.memCapacity) (h : m.wf = true) :
    (memPut m addr v).wf = true := by
  unfold memPut
  split
  · exact memWfFrom_memDrop addr h
  · next hv =>
    exact memWfFrom_memInsert (Nat.zero_le _) ha hv (fun c hc => ne_of_mem_memDrop hc) (memWfFrom_memDrop addr h)

@[simp] theorem memInit_wf : memInit.wf = true := rfl

@[simp] theorem memByte_memInit (addr : Nat) : memByte memInit addr = 0x00#8 := rfl

@[simp] theorem reset_mem_wf : State.reset.mem.wf = true := rfl

/-! ## The primitives -/

/-- MemRead answers exactly inside the memory, with the byte there (R41). -/
theorem memRead_ok_iff {m : Memory} {addr : Nat} {v : Byte} :
    memRead m addr = .ok v ↔ addr < Config.memCapacity ∧ memByte m addr = v := by
  unfold memRead
  split <;> simp_all

theorem memRead_of_lt (m : Memory) {addr : Nat} (h : addr < Config.memCapacity) :
    memRead m addr = .ok (memByte m addr) := by simp [memRead, h]

theorem memRead_of_ge (m : Memory) {addr : Nat} (h : Config.memCapacity ≤ addr) :
    memRead m addr = .error (.memOutOfRange addr) := by simp [memRead, Nat.not_lt.mpr h]

/-- MemWrite answers exactly inside the memory, with that byte put (R42). -/
theorem memWrite_ok_iff {m m' : Memory} {addr : Nat} {v : Byte} :
    memWrite m addr v = .ok m' ↔ addr < Config.memCapacity ∧ m' = memPut m addr v := by
  unfold memWrite
  split
  · next h => simp [h, eq_comm]
  · next h => simp [h]

theorem memWrite_of_lt (m : Memory) {addr : Nat} (v : Byte) (h : addr < Config.memCapacity) :
    memWrite m addr v = .ok (memPut m addr v) := by simp [memWrite, h]

theorem memWrite_of_ge (m : Memory) {addr : Nat} (v : Byte) (h : Config.memCapacity ≤ addr) :
    memWrite m addr v = .error (.memOutOfRange addr) := by simp [memWrite, Nat.not_lt.mpr h]

theorem memWrite_wf {m m' : Memory} {addr : Nat} {v : Byte} (hw : memWrite m addr v = .ok m') (h : m.wf = true) :
    m'.wf = true := by
  obtain ⟨ha, rfl⟩ := memWrite_ok_iff.mp hw
  exact memPut_wf v ha h

/-- A word's address is inside the memory. -/
theorem word_lt_capacity (a : Word) : a.toNat < Config.memCapacity := a.isLt

@[simp] theorem zext17_toNat (a : Word) : (zext17 a).toNat = a.toNat := by
  have := a.isLt
  simp [zext17]
  omega

/-- `inc17` is exact: the carry out of 16 bits is kept (R91). -/
@[simp] theorem inc17_toNat (a : Word) : (inc17 a).toNat = a.toNat + 1 := by
  have := a.isLt
  simp [inc17, BitVec.toNat_add]
  omega

/-- The two-byte write below the top of memory: low byte at `addr`, high byte after it (R44). -/
theorem memWriteWord_of_lt (m : Memory) {addr : Word} (v : Word) (h : addr.toNat < 65535) :
    memWriteWord m addr v = .ok (memPut (memPut m addr.toNat (lowByte v)) (addr.toNat + 1) (highByte v)) := by
  have h1 : addr.toNat < Config.memCapacity := by simp only [Config.memCapacity]; omega
  have h2 : addr.toNat + 1 < Config.memCapacity := by simp only [Config.memCapacity]; omega
  simp [memWriteWord, memWrite_of_lt, h1, h2]

/-- The two-byte write at the top of memory raises at its second byte (R44). -/
theorem memWriteWord_top (m : Memory) (v : Word) :
    memWriteWord m 0xFFFF#16 v = .error (.memOutOfRange 0x10000) := by
  simp [memWriteWord, memWrite, Config.memCapacity]

theorem memWriteWord_wf {m m' : Memory} {addr v : Word} (hw : memWriteWord m addr v = .ok m') (h : m.wf = true) :
    m'.wf = true := by
  unfold memWriteWord at hw
  split at hw
  · cases hw
  · next h1 => exact memWrite_wf hw (memWrite_wf h1 h)

/-! ## Whole lists of writes -/

theorem memOfCells_wf (cells : List (Nat × Byte)) : (memOfCells cells).wf = true := by
  have step : ∀ (cells : List (Nat × Byte)) (m : Memory), m.wf = true →
      Memory.wf (cells.foldl (fun m c => if c.1 < Config.memCapacity then memPut m c.1 c.2 else m) m) = true := by
    intro cells
    induction cells with
    | nil => exact fun m h => h
    | cons c cells ih =>
      intro m h
      refine ih _ ?_
      by_cases hc : c.1 < Config.memCapacity
      · simpa [hc] using memPut_wf c.2 hc h
      · simpa [hc] using h
  exact step cells memInit memInit_wf

/-- Cells written later at other addresses leave a byte alone. -/
theorem memByte_memOfCells_append (cells later : List (Nat × Byte)) {addr : Nat} (h : ∀ c ∈ later, c.1 ≠ addr) :
    memByte (memOfCells (cells ++ later)) addr = memByte (memOfCells cells) addr := by
  unfold memOfCells
  rw [List.foldl_append]
  generalize List.foldl _ memInit cells = m
  induction later generalizing m with
  | nil => rfl
  | cons c later ih =>
    rw [List.foldl_cons, ih (fun d hd => h d (by simp [hd]))]
    split
    · exact memByte_memPut_of_ne _ _ (h c (by simp)).symm
    · rfl

theorem placeBytes_wf (bs : List Byte) {m : Memory} (pc : Word) (h : m.wf = true) : (placeBytes m pc bs).wf = true := by
  induction bs generalizing m pc with
  | nil => exact h
  | cons b bs ih => exact ih _ (memPut_wf b pc.isLt h)

end Sys2Proof.Machine
end

