-- ==== Sys2Proof/Laws/State.lean ====
section
/-! SUPPORT. One lemma per field per update of the state, each true by rfl, so that no later proof unfolds a record
update. -/

namespace Sys2Proof.Machine

/-! ## charge -/

@[simp] theorem charge_pc (n : Nat) (s : State) : (charge n s).pc = s.pc := rfl
@[simp] theorem charge_sp (n : Nat) (s : State) : (charge n s).sp = s.sp := rfl
@[simp] theorem charge_a (n : Nat) (s : State) : (charge n s).a = s.a := rfl
@[simp] theorem charge_x (n : Nat) (s : State) : (charge n s).x = s.x := rfl
@[simp] theorem charge_y (n : Nat) (s : State) : (charge n s).y = s.y := rfl
@[simp] theorem charge_p (n : Nat) (s : State) : (charge n s).p = s.p := rfl
@[simp] theorem charge_cycles (n : Nat) (s : State) : (charge n s).cycles = s.cycles - n := rfl
@[simp] theorem charge_fault (n : Nat) (s : State) : (charge n s).fault = s.fault := rfl
@[simp] theorem charge_log (n : Nat) (s : State) : (charge n s).log = s.log := rfl
@[simp] theorem charge_run (n : Nat) (s : State) : (charge n s).run = s.run := rfl
@[simp] theorem charge_mem (n : Nat) (s : State) : (charge n s).mem = s.mem := rfl
@[simp] theorem charge_freeCount (n : Nat) (s : State) : (charge n s).freeCount = s.freeCount := rfl
@[simp] theorem charge_hostQueue (n : Nat) (s : State) : (charge n s).hostQueue = s.hostQueue := rfl
@[simp] theorem charge_hostReply (n : Nat) (s : State) : (charge n s).hostReply = s.hostReply := rfl
@[simp] theorem charge_hostError (n : Nat) (s : State) : (charge n s).hostError = s.hostError := rfl

/-! ## advance -/

@[simp] theorem advance_pc (s : State) : (advance s).pc = inc16 s.pc := rfl
@[simp] theorem advance_sp (s : State) : (advance s).sp = s.sp := rfl
@[simp] theorem advance_a (s : State) : (advance s).a = s.a := rfl
@[simp] theorem advance_x (s : State) : (advance s).x = s.x := rfl
@[simp] theorem advance_y (s : State) : (advance s).y = s.y := rfl
@[simp] theorem advance_p (s : State) : (advance s).p = s.p := rfl
@[simp] theorem advance_cycles (s : State) : (advance s).cycles = s.cycles - 1 := rfl
@[simp] theorem advance_fault (s : State) : (advance s).fault = s.fault := rfl
@[simp] theorem advance_log (s : State) : (advance s).log = s.log := rfl
@[simp] theorem advance_run (s : State) : (advance s).run = s.run := rfl
@[simp] theorem advance_mem (s : State) : (advance s).mem = s.mem := rfl
@[simp] theorem advance_freeCount (s : State) : (advance s).freeCount = s.freeCount := rfl
@[simp] theorem advance_hostQueue (s : State) : (advance s).hostQueue = s.hostQueue := rfl
@[simp] theorem advance_hostReply (s : State) : (advance s).hostReply = s.hostReply := rfl
@[simp] theorem advance_hostError (s : State) : (advance s).hostError = s.hostError := rfl

/-! ## report -/

@[simp] theorem report_pc (op : Byte) (s : State) : (report op s).pc = s.pc := rfl
@[simp] theorem report_sp (op : Byte) (s : State) : (report op s).sp = s.sp := rfl
@[simp] theorem report_a (op : Byte) (s : State) : (report op s).a = s.a := rfl
@[simp] theorem report_x (op : Byte) (s : State) : (report op s).x = s.x := rfl
@[simp] theorem report_y (op : Byte) (s : State) : (report op s).y = s.y := rfl
@[simp] theorem report_p (op : Byte) (s : State) : (report op s).p = s.p := rfl
@[simp] theorem report_cycles (op : Byte) (s : State) : (report op s).cycles = s.cycles := rfl
@[simp] theorem report_fault (op : Byte) (s : State) : (report op s).fault = s.fault := rfl
@[simp] theorem report_log (op : Byte) (s : State) : (report op s).log = s.log ++ [.unhandledOpcode op] := rfl
@[simp] theorem report_run (op : Byte) (s : State) : (report op s).run = s.run := rfl
@[simp] theorem report_mem (op : Byte) (s : State) : (report op s).mem = s.mem := rfl
@[simp] theorem report_freeCount (op : Byte) (s : State) : (report op s).freeCount = s.freeCount := rfl
@[simp] theorem report_hostQueue (op : Byte) (s : State) : (report op s).hostQueue = s.hostQueue := rfl
@[simp] theorem report_hostReply (op : Byte) (s : State) : (report op s).hostReply = s.hostReply := rfl
@[simp] theorem report_hostError (op : Byte) (s : State) : (report op s).hostError = s.hostError := rfl

/-! ## executeReturn -/

@[simp] theorem executeReturn_pc (s : State) : (executeReturn s).pc = s.pc := rfl
@[simp] theorem executeReturn_sp (s : State) : (executeReturn s).sp = s.sp := rfl
@[simp] theorem executeReturn_a (s : State) : (executeReturn s).a = s.a := rfl
@[simp] theorem executeReturn_x (s : State) : (executeReturn s).x = s.x := rfl
@[simp] theorem executeReturn_y (s : State) : (executeReturn s).y = s.y := rfl
@[simp] theorem executeReturn_p (s : State) : (executeReturn s).p = s.p := rfl
@[simp] theorem executeReturn_cycles (s : State) : (executeReturn s).cycles = s.cycles := rfl
@[simp] theorem executeReturn_fault (s : State) : (executeReturn s).fault = s.fault := rfl
@[simp] theorem executeReturn_log (s : State) : (executeReturn s).log = s.log := rfl
@[simp] theorem executeReturn_run (s : State) : (executeReturn s).run = .idle := rfl
@[simp] theorem executeReturn_mem (s : State) : (executeReturn s).mem = s.mem := rfl
@[simp] theorem executeReturn_freeCount (s : State) : (executeReturn s).freeCount = s.freeCount := rfl
@[simp] theorem executeReturn_hostQueue (s : State) : (executeReturn s).hostQueue = s.hostQueue := rfl
@[simp] theorem executeReturn_hostReply (s : State) : (executeReturn s).hostReply = some .done := rfl
@[simp] theorem executeReturn_hostError (s : State) : (executeReturn s).hostError = s.hostError := rfl

/-! ## hostReadState -/

@[simp] theorem hostReadState_pc (s : State) : (hostReadState s).pc = s.pc := rfl
@[simp] theorem hostReadState_sp (s : State) : (hostReadState s).sp = s.sp := rfl
@[simp] theorem hostReadState_a (s : State) : (hostReadState s).a = s.a := rfl
@[simp] theorem hostReadState_x (s : State) : (hostReadState s).x = s.x := rfl
@[simp] theorem hostReadState_y (s : State) : (hostReadState s).y = s.y := rfl
@[simp] theorem hostReadState_p (s : State) : (hostReadState s).p = s.p := rfl
@[simp] theorem hostReadState_cycles (s : State) : (hostReadState s).cycles = s.cycles := rfl
@[simp] theorem hostReadState_fault (s : State) : (hostReadState s).fault = s.fault := rfl
@[simp] theorem hostReadState_log (s : State) : (hostReadState s).log = s.log := rfl
@[simp] theorem hostReadState_run (s : State) : (hostReadState s).run = s.run := rfl
@[simp] theorem hostReadState_mem (s : State) : (hostReadState s).mem = s.mem := rfl
@[simp] theorem hostReadState_freeCount (s : State) : (hostReadState s).freeCount = s.freeCount := rfl
@[simp] theorem hostReadState_hostQueue (s : State) : (hostReadState s).hostQueue = s.hostQueue := rfl
@[simp] theorem hostReadState_hostReply (s : State) : (hostReadState s).hostReply = some (.state (hostView s)) := rfl
@[simp] theorem hostReadState_hostError (s : State) : (hostReadState s).hostError = s.hostError := rfl

/-! ## hostFails -/

@[simp] theorem hostFails_pc (e : FatalError) (s : State) : (hostFails e s).pc = s.pc := rfl
@[simp] theorem hostFails_sp (e : FatalError) (s : State) : (hostFails e s).sp = s.sp := rfl
@[simp] theorem hostFails_a (e : FatalError) (s : State) : (hostFails e s).a = s.a := rfl
@[simp] theorem hostFails_x (e : FatalError) (s : State) : (hostFails e s).x = s.x := rfl
@[simp] theorem hostFails_y (e : FatalError) (s : State) : (hostFails e s).y = s.y := rfl
@[simp] theorem hostFails_p (e : FatalError) (s : State) : (hostFails e s).p = s.p := rfl
@[simp] theorem hostFails_cycles (e : FatalError) (s : State) : (hostFails e s).cycles = s.cycles := rfl
@[simp] theorem hostFails_fault (e : FatalError) (s : State) : (hostFails e s).fault = s.fault := rfl
@[simp] theorem hostFails_log (e : FatalError) (s : State) : (hostFails e s).log = s.log := rfl
@[simp] theorem hostFails_run (e : FatalError) (s : State) : (hostFails e s).run = s.run := rfl
@[simp] theorem hostFails_mem (e : FatalError) (s : State) : (hostFails e s).mem = s.mem := rfl
@[simp] theorem hostFails_freeCount (e : FatalError) (s : State) : (hostFails e s).freeCount = s.freeCount := rfl
@[simp] theorem hostFails_hostQueue (e : FatalError) (s : State) : (hostFails e s).hostQueue = s.hostQueue := rfl
@[simp] theorem hostFails_hostReply (e : FatalError) (s : State) : (hostFails e s).hostReply = some (.memOutOfRange (fatalAddr e)) := rfl
@[simp] theorem hostFails_hostError (e : FatalError) (s : State) : (hostFails e s).hostError = some (fatalAddr e) := rfl

/-! ## hostReset -/

@[simp] theorem hostReset_pc (s : State) : (hostReset s).pc = Config.resetPC := rfl
@[simp] theorem hostReset_sp (s : State) : (hostReset s).sp = Config.resetSP := rfl
@[simp] theorem hostReset_a (s : State) : (hostReset s).a = 0x00#8 := rfl
@[simp] theorem hostReset_x (s : State) : (hostReset s).x = 0x00#8 := rfl
@[simp] theorem hostReset_y (s : State) : (hostReset s).y = 0x00#8 := rfl
@[simp] theorem hostReset_p (s : State) : (hostReset s).p = Flags.clear := rfl
@[simp] theorem hostReset_cycles (s : State) : (hostReset s).cycles = 0 := rfl
@[simp] theorem hostReset_fault (s : State) : (hostReset s).fault = s.fault := rfl
@[simp] theorem hostReset_log (s : State) : (hostReset s).log = s.log := rfl
@[simp] theorem hostReset_run (s : State) : (hostReset s).run = s.run := rfl
@[simp] theorem hostReset_mem (s : State) : (hostReset s).mem = memInit := rfl
@[simp] theorem hostReset_freeCount (s : State) : (hostReset s).freeCount = s.freeCount := rfl
@[simp] theorem hostReset_hostQueue (s : State) : (hostReset s).hostQueue = s.hostQueue := rfl
@[simp] theorem hostReset_hostReply (s : State) : (hostReset s).hostReply = some .done := rfl
@[simp] theorem hostReset_hostError (s : State) : (hostReset s).hostError = none := rfl

/-! ## takeFault: what the fatal fault fixes (60_exceptions.md R152); the other fields are free values -/

@[simp] theorem takeFault_fault (e : FatalError) (s : State) : (takeFault e s).fault = some e := rfl
@[simp] theorem takeFault_run (e : FatalError) (s : State) : (takeFault e s).run = .faulted := rfl
@[simp] theorem takeFault_freeCount (e : FatalError) (s : State) : (takeFault e s).freeCount = s.freeCount + 1 := rfl
@[simp] theorem takeFault_hostQueue (e : FatalError) (s : State) : (takeFault e s).hostQueue = s.hostQueue := rfl
@[simp] theorem takeFault_hostReply (e : FatalError) (s : State) :
    (takeFault e s).hostReply = some (.memOutOfRange (fatalAddr e)) := rfl
@[simp] theorem takeFault_hostError (e : FatalError) (s : State) : (takeFault e s).hostError = s.hostError := rfl
@[simp] theorem takeFault_mem (e : FatalError) (s : State) :
    (takeFault e s).mem = memOfCells (Config.faultedCells s.freeCount) := rfl

/-! ## setZN and the host view -/

@[simp] theorem setZN_c (v : Byte) (p : Flags) : (setZN v p).c = p.c := rfl
@[simp] theorem setZN_z (v : Byte) (p : Flags) : (setZN v p).z = zflag v := rfl
@[simp] theorem setZN_i (v : Byte) (p : Flags) : (setZN v p).i = p.i := rfl
@[simp] theorem setZN_d (v : Byte) (p : Flags) : (setZN v p).d = p.d := rfl
@[simp] theorem setZN_b (v : Byte) (p : Flags) : (setZN v p).b = p.b := rfl
@[simp] theorem setZN_v (v : Byte) (p : Flags) : (setZN v p).v = p.v := rfl
@[simp] theorem setZN_n (v : Byte) (p : Flags) : (setZN v p).n = nflag v := rfl

end Sys2Proof.Machine
end

