-- ==== Sys2Proof/Laws/Ops.lean ====
section
/-! SUPPORT. One lemma for each shared operation of the block that says once everything it can do (spec
40_fetch_and_addressing.md R80 to R88, 60_exceptions.md R152). Callers cite these and do not unfold the operation. -/

namespace Sys2Proof.Machine

/-! ## The fetch unit: a fetch and a data read always answer -/

theorem fetchByte_eq (s : State) : fetchByte s = .ok (memByte s.mem s.pc.toNat, advance s) := by
  simp [fetchByte, memRead_of_lt _ (word_lt_capacity s.pc)]

theorem readByte_eq (addr : Word) (s : State) : readByte addr s = .ok (memByte s.mem addr.toNat, charge 1 s) := by
  simp [readByte, memRead_of_lt _ (word_lt_capacity addr)]

theorem fetchAbsoluteAddress_eq (s : State) :
    fetchAbsoluteAddress s =
      .ok (wordOf (memByte s.mem (inc16 s.pc).toNat) (memByte s.mem s.pc.toNat), advance (advance s)) := by
  simp [fetchAbsoluteAddress, fetchByte_eq]

/-- The word write below the top of memory. -/
theorem writeWord_of_lt {addr : Word} (v : Word) (s : State) (h : addr.toNat < 65535) :
    writeWord addr v s =
      .ok (charge 2 { s with
        mem := memPut (memPut s.mem addr.toNat (lowByte v)) (addr.toNat + 1) (highByte v) }) := by
  simp [writeWord, memWriteWord_of_lt _ _ h]

/-- The word write at the top of memory raises. -/
theorem writeWord_top (v : Word) (s : State) : writeWord 0xFFFF#16 v s = .error (.memOutOfRange 0x10000) := by
  simp [writeWord, memWriteWord_top]

/-- A word is below the top of memory or is the top. -/
theorem word_lt_or_top (a : Word) : a.toNat < 65535 ∨ a = 0xFFFF#16 := by
  have h := a.isLt
  by_cases ha : a.toNat < 65535
  · exact .inl ha
  · exact .inr (BitVec.eq_of_toNat_eq (by simp; omega))

/-! ## The addressing modes -/

theorem resolveImmediate_eq (imm : Byte) (s : State) : resolveImmediate imm s = .ok (imm, advance s) := rfl

theorem resolveZeroPage_eq (zp : Byte) (s : State) :
    resolveZeroPage zp s = .ok (memByte s.mem (zeroPageAddr zp).toNat, charge 1 (advance s)) := by
  simp [resolveZeroPage, readByte_eq]

theorem resolveZeroPageX_eq (zp : Byte) (s : State) :
    resolveZeroPageX zp s =
      .ok (memByte s.mem (zeroPageXAddr zp s.x).toNat, charge 1 (charge 1 (advance s))) := by
  simp [resolveZeroPageX, readByte_eq]

theorem resolveAbsolute_eq (target : Word) (s : State) :
    resolveAbsolute target s = .ok (target, advance (advance s)) := rfl

/-- A zero-page address is the byte itself. -/
@[simp] theorem zext16_toNat (v : Byte) : (zext16 v).toNat = v.toNat := by
  have := v.isLt
  simp [zext16]
  omega

/-! ## The LDA family's end, and the call -/

theorem loadA_ok (v : Byte) (s : State) : loadA (.ok (v, s)) = .ok { s with a := v, p := setZN v s.p } := rfl

theorem loadA_error (e : FatalError) : loadA (.error e) = .error e := rfl

/-- The push and the jump when the push fits. -/
theorem callTo_of_lt (target : Word) {s : State} (h : s.sp.toNat < 65535) :
    callTo target s =
      .ok { s with
        pc := target
        sp := inc16 s.sp
        cycles := s.cycles - 2 - 1
        mem := memPut (memPut s.mem s.sp.toNat (lowByte (returnAddress s))) (s.sp.toNat + 1)
          (highByte (returnAddress s)) } := by
  simp [callTo, writeWord_of_lt _ _ h, charge]

/-- The push at `SP = 0xFFFF` raises. -/
theorem callTo_top (target : Word) {s : State} (h : s.sp = 0xFFFF#16) :
    callTo target s = .error (.memOutOfRange 0x10000) := by
  simp [callTo, h, writeWord_top]

/-! ## The end of an instruction -/

/-- An instruction's end: its last state, or the fatal fault (R104). -/
theorem conclude_next {s t : State} {r : Except FatalError State} (h : conclude s r = .next t) :
    r = .ok t ∨ ∃ e, r = .error e ∧ t = takeFault e s := by
  cases r with
  | ok u => cases h; exact .inl rfl
  | error e => cases h; exact .inr ⟨e, rfl, rfl⟩

@[simp] theorem conclude_ok (s t : State) : conclude s (.ok t) = .next t := rfl

@[simp] theorem conclude_error (s : State) (e : FatalError) : conclude s (.error e) = .next (takeFault e s) := rfl

theorem takeFault_mem_wf (e : FatalError) (s : State) : (takeFault e s).mem.wf = true := memOfCells_wf _

/-! ## The host's operations -/

/-- A host write: inside the memory the byte is put, outside it the host access fails (R186). -/
theorem hostMemWrite_cases (addr : Nat) (v : Byte) (s : State) :
    (addr < Config.memCapacity ∧
        hostMemWrite addr v s = { s with mem := memPut s.mem addr v, hostReply := some .done }) ∨
      (Config.memCapacity ≤ addr ∧ hostMemWrite addr v s = hostFails (.memOutOfRange addr) s) := by
  by_cases h : addr < Config.memCapacity
  · exact .inl ⟨h, by simp [hostMemWrite, memWrite_of_lt _ _ h]⟩
  · have h' := Nat.not_lt.mp h
    exact .inr ⟨h', by simp [hostMemWrite, memWrite_of_ge _ _ h']⟩

/-- A host read: inside the memory the byte is the reply, outside it the host access fails (R188). -/
theorem hostMemRead_cases (addr : Nat) (s : State) :
    (addr < Config.memCapacity ∧ hostMemRead addr s = { s with hostReply := some (.byte (memByte s.mem addr)) }) ∨
      (Config.memCapacity ≤ addr ∧ hostMemRead addr s = hostFails (.memOutOfRange addr) s) := by
  by_cases h : addr < Config.memCapacity
  · exact .inl ⟨h, by simp [hostMemRead, memRead_of_lt _ h]⟩
  · have h' := Nat.not_lt.mp h
    exact .inr ⟨h', by simp [hostMemRead, memRead_of_ge _ h']⟩

/-- An Idle block meets the requirement. -/
theorem requireIdle_of_idle {s : State} (answer : Host.Outcome State Fault Refusal) (h : s.run = .idle) :
    requireIdle s answer = answer := by simp [requireIdle, h]

/-- A Faulted block has no step (R152). -/
theorem requireIdle_of_faulted {s : State} (answer : Host.Outcome State Fault Refusal) (h : s.run = .faulted) :
    requireIdle s answer = .fault (.blockFaulted s.fault) := by simp [requireIdle, h]

/-- A Running block blocks the host (R188). -/
theorem requireIdle_of_running {s : State} (answer : Host.Outcome State Fault Refusal) (h : s.run = .running) :
    requireIdle s answer = .refused .hostBlocked := by simp [requireIdle, h]

/-- What an operation that requires an Idle block says where it answers a next state. -/
theorem requireIdle_next {s t : State} {answer : Host.Outcome State Fault Refusal}
    (h : requireIdle s answer = .next t) : s.run = .idle ∧ answer = .next t := by
  unfold requireIdle at h
  split at h
  · next hr => exact ⟨hr, h⟩
  · cases h
  · cases h

/-- Where execute begins: on an Idle block with no failed host access (R100, R186). -/
theorem hostExecute_next {budget : Int} {s t : State} (h : hostExecute budget s = .next t) :
    s.run = .idle ∧ s.hostError = none ∧ t = { s with cycles := budget, run := .running, hostReply := none } := by
  obtain ⟨hr, h⟩ := requireIdle_next h
  split at h
  · cases h
  · next he => cases h; exact ⟨hr, he, rfl⟩

/-- Execute begins on an Idle block with no failed host access. -/
theorem hostExecute_of_idle (budget : Int) {s : State} (hr : s.run = .idle) (he : s.hostError = none) :
    hostExecute budget s = .next { s with cycles := budget, run := .running, hostReply := none } := by
  simp [hostExecute, requireIdle, hr, he]

/-- What a served request of the host can do (R188). -/
theorem hostServe_next {op : HostOp} {s t : State} (h : hostServe op s = .next t) :
    (op = .readState ∧ s.run ≠ .running ∧ t = hostReadState s) ∨
      (s.run = .idle ∧
        ((op = .reset ∧ t = hostReset s) ∨ (∃ addr v, op = .memWrite addr v ∧ t = hostMemWrite addr v s) ∨
          (∃ addr, op = .memRead addr ∧ t = hostMemRead addr s) ∨
          ∃ budget, op = .execute budget ∧ s.hostError = none ∧
            t = { s with cycles := budget, run := .running, hostReply := none })) := by
  cases op with
  | reset =>
    obtain ⟨hr, h⟩ := requireIdle_next h
    cases h; exact .inr ⟨hr, .inl ⟨rfl, rfl⟩⟩
  | memWrite addr v =>
    obtain ⟨hr, h⟩ := requireIdle_next h
    cases h; exact .inr ⟨hr, .inr (.inl ⟨addr, v, rfl, rfl⟩)⟩
  | memRead addr =>
    obtain ⟨hr, h⟩ := requireIdle_next h
    cases h; exact .inr ⟨hr, .inr (.inr (.inl ⟨addr, rfl, rfl⟩))⟩
  | execute budget =>
    obtain ⟨hr, he, rfl⟩ := hostExecute_next h
    exact .inr ⟨hr, .inr (.inr (.inr ⟨budget, rfl, he, rfl⟩))⟩
  | readState =>
    unfold hostServe at h
    simp only at h
    split at h
    · next hr => cases h; exact .inl ⟨rfl, by simp [hr], rfl⟩
    · cases h
    · next hr => cases h; exact .inl ⟨rfl, by simp [hr], rfl⟩

/-- What an Idle step can do: stay, or serve the oldest request. -/
theorem stepIdle_next {s t : State} (h : stepIdle s = .next t) :
    (s.hostQueue = [] ∧ t = s) ∨
      ∃ op rest, s.hostQueue = op :: rest ∧ hostServe op { s with hostQueue := rest } = .next t := by
  unfold stepIdle at h
  split at h
  · next hq => cases h; exact .inl ⟨hq, rfl⟩
  · next op rest hq => exact .inr ⟨op, rest, hq, h⟩

/-- What a Faulted step can do: answer a state read, or nothing (R152, R188). -/
theorem stepFaulted_next {s t : State} (hf : s.run = .faulted) (h : stepFaulted s = .next t) :
    ∃ rest, s.hostQueue = .readState :: rest ∧ t = hostReadState { s with hostQueue := rest } := by
  unfold stepFaulted at h
  split at h
  · cases h
  · next op rest hq =>
    obtain ⟨rfl, _, rfl⟩ | ⟨hr, _⟩ := hostServe_next h
    · exact ⟨rest, hq, rfl⟩
    · simp [hf] at hr

/-- What a Running step can do: the instruction at the program counter, or execute's return. -/
theorem stepRunning_next {s t : State} (h : stepRunning s = .next t) :
    (0 < s.cycles ∧ exec (instrAtPC s) s = .next t) ∨ (s.cycles ≤ 0 ∧ t = executeReturn s) := by
  unfold stepRunning at h
  split at h
  · next hc => exact .inl ⟨hc, h⟩
  · next hc => cases h; exact .inr ⟨Int.not_lt.mp hc, rfl⟩

end Sys2Proof.Machine
end

