-- ==== Sys2Proof/Laws/PerInstr.lean ====
section
/-! SUPPORT. A statement about every instruction as syntax, one lemma per constructor: the encoding has the length and
the opcode byte that the opcode table gives (spec 30_encoding.md R60, R62, R64). -/

namespace Sys2Proof.Laws

/-- A well-formed instruction's bytes are as many as its opcode says, and begin with its opcode. -/
def EncodeShape.Statement (i : Instr) : Prop :=
  i.WellFormed → (encode i).length = lengthOf i.opcode ∧ i.length = lengthOf i.opcode ∧
    i.cycles = cyclesOf i.opcode ∧ (encode i).head? = some i.opcode

theorem EncodeShape.ldaImm (imm : Byte) : EncodeShape.Statement (.ldaImm imm) := fun _ => ⟨rfl, rfl, rfl, rfl⟩

theorem EncodeShape.ldaZp (zp : Byte) : EncodeShape.Statement (.ldaZp zp) := fun _ => ⟨rfl, rfl, rfl, rfl⟩

theorem EncodeShape.ldaZpx (zp : Byte) : EncodeShape.Statement (.ldaZpx zp) := fun _ => ⟨rfl, rfl, rfl, rfl⟩

theorem EncodeShape.jsrAbs (target : Word) : EncodeShape.Statement (.jsrAbs target) := fun _ => ⟨rfl, rfl, rfl, rfl⟩

theorem EncodeShape.unhandled (op : Byte) : EncodeShape.Statement (.unhandled op) := by
  intro h
  have hm : op ∉ mappedOpcodes := by simpa [Instr.WellFormed, Instr.wf] using h
  simp [encode, Instr.opcode, Instr.length, Instr.cycles, lengthOf, cyclesOf, lookup_of_not_mapped hm]

end Sys2Proof.Laws
end

