-- ==== Sys2Proof/Laws/Run.lean ====
section
/-! SUPPORT. How runs of many steps unfold, one step at a time: the host's `Core.run`, and the loop of `execute` (spec
41_dispatch_fsm.md R100). -/

namespace Sys2Proof.Machine

/-- One more step of any machine whose step answers a next state. -/
theorem core_run_succ_of_next {M : Host.Core} {s t : M.State} (k : Nat) (h : M.step s = .next t) :
    M.run (k + 1) s = M.run k t := by
  simp [Host.Core.run, h]

/-- A block that is not Running is where the loop stops. -/
theorem runWhileRunning_of_not_running (fuel : Nat) {s : State} (h : s.run ≠ .running) :
    runWhileRunning fuel s = .next s := by
  cases fuel <;> simp [runWhileRunning, h]

/-- One turn of the loop. -/
theorem runWhileRunning_of_next (fuel : Nat) {s t : State} (h : s.run = .running) (hs : step s = .next t) :
    runWhileRunning (fuel + 1) s = runWhileRunning fuel t := by
  simp [runWhileRunning, h, hs]

/-- An execute that begins is the loop from the loaded budget. -/
theorem execute_of_idle (budget : Int) {s : State} (hr : s.run = .idle) (he : s.hostError = none) :
    execute budget s =
      runWhileRunning (budget.toNat + 1) { s with cycles := budget, run := .running, hostReply := none } := by
  simp [execute, hostExecute_of_idle budget hr he]

/-- An execute that answers a next state began on an Idle block without a failed host access (R100, R186). -/
theorem execute_next {budget : Int} {s t : State} (h : execute budget s = .next t) :
    s.run = .idle ∧ s.hostError = none := by
  unfold execute at h
  split at h
  · next u hu => exact ⟨(hostExecute_next hu).1, (hostExecute_next hu).2.1⟩
  · cases h
  · cases h

end Sys2Proof.Machine
end

