-- ==== Sys2Proof/Tests/Slice0.lean ====
section
/-! SUPPORT. The model's own tests: the well-formedness smoke test, decoding of words written out from the spec's
encodings, single steps whose results stand in spec/95_test_vectors.md, and a witness for the hypotheses of each
obligation. -/

namespace Sys2Proof.Tests

open Sys2Proof.Machine

/-! ## Helpers -/

/-- The next state, or the reset state where there is none. -/
def after : Host.Outcome State Fault Refusal → State
  | .next t => t
  | .fault _ => State.reset
  | .refused _ => State.reset

/-- Whether there is a next state. -/
def isNext : Host.Outcome State Fault Refusal → Bool
  | .next _ => true
  | .fault _ => false
  | .refused _ => false

theorem eq_next_after {o : Host.Outcome State Fault Refusal} (h : isNext o = true) : o = .next (after o) := by
  cases o with
  | next t => rfl
  | fault r => cases h
  | refused r => cases h

/-- Flags written `CZIDBVN=bbbbbbb`, all ones. -/
def allSet : Flags := { c := true, z := true, i := true, d := true, b := true, v := true, n := true }

/-- A Running state: `S` of 95_test_vectors.md inside an execute with the budget `n`. -/
def running (n : Int) (s : State) : State := { s with cycles := n, run := .running }

/-- `S{PC=pc, SP=sp, X=x}` with bytes written, all flags clear. -/
def startAt (pc sp : Word) (x : Byte) (cells : List (Nat × Byte)) : State :=
  explicitStart pc sp 0x00#8 x 0x00#8 Flags.clear cells

/-! ## Well-formedness: an ill-formed term for the one check there is -/

theorem test_illformed_unhandled_a9 : (Instr.unhandled 0xA9#8).wf = false := by decide
theorem test_illformed_unhandled_20 : (Instr.unhandled 0x20#8).wf = false := by decide
theorem test_wellformed_unhandled_ff : (Instr.unhandled 0xFF#8).WellFormed := by decide

/-! ## Decoding: words bit by bit from the encoding column of spec/opcode_table.json -/

/-- 10101001 iiiiiiii. -/
theorem test_decode_lda_imm : decode [0b10101001#8, 0b01000010#8] = .ok (.ldaImm 0x42#8, []) := by decide
/-- 10100101 zzzzzzzz. -/
theorem test_decode_lda_zp : decode [0b10100101#8, 0b01000010#8] = .ok (.ldaZp 0x42#8, []) := by decide
/-- 10110101 zzzzzzzz. -/
theorem test_decode_lda_zpx : decode [0b10110101#8, 0b11110000#8] = .ok (.ldaZpx 0xF0#8, []) := by decide
/-- 00100000 llllllll hhhhhhhh. -/
theorem test_decode_jsr : decode [0b00100000#8, 0b00110100#8, 0b00010010#8] = .ok (.jsrAbs 0x1234#16, []) := by decide
/-- oooooooo: one byte, and the bytes after it are left. -/
theorem test_decode_unhandled : decode [0b10101101#8, 0x34#8] = .ok (.unhandled 0xAD#8, [0x34#8]) := by decide
/-- A list that ends inside an instruction is rejected by name. -/
theorem test_decode_truncated : decode [0x20#8, 0x00#8] = .error (.truncated 0x20#8 2 1) := by decide
/-- The table's own numbering: the second byte is bits 15..8, the third bits 23..16; short rows end in zeros. -/
theorem test_table_word_jsr : decodeTableWord 24 0x123420 = some (.jsrAbs 0x1234#16) := by decide
theorem test_table_word_short : decodeTableWord 8 0xA9 = some (.ldaImm 0x00#8) := by decide
/-- All 256 byte values: exactly the four of R62 are mapped, and the 252 of R65 are not. -/
theorem test_mapped_count :
    ((List.range 256).filter fun n => (lookup (BitVec.ofNat 8 n)).isSome) = [0x20, 0xA5, 0xA9, 0xB5] := by decide
/-- No row costs more than MAX_INSN_CYCLES, and one costs that (R9, R107). -/
theorem test_max_cycles : (opcodeTable.map Row.cycles).foldl max 0 = Config.maxInsnCycles := by decide

/-! ## Single steps from spec/95_test_vectors.md -/

/-- V-LDAI-6: the operand wraps to 0x0000. -/
theorem test_lda_imm_wraps :
    let t := after (step (running 2 (startAt 0xFFFF#16 0x0100#16 0x00#8 [(0xFFFF, 0xA9#8), (0x0000, 0x42#8)])))
    t.a = 0x42#8 ∧ t.p = Flags.clear ∧ t.pc = 0x0001#16 ∧ t.cycles = 0 := by decide

/-- V-LDAI-4: bit 7 sets N, Z is cleared, the other five flags stay set. -/
theorem test_lda_imm_negative :
    let t := after (step (running 2 (explicitStart 0x0200#16 0x0100#16 0x00#8 0x00#8 0x00#8 allSet
      [(0x0200, 0xA9#8), (0x0201, 0x80#8)])))
    t.a = 0x80#8 ∧ t.p = { allSet with z := false } ∧ t.cycles = 0 := by decide

/-- W1, the source's scenario 1. -/
theorem test_lda_zp_w1 :
    let t := after (step (running 3 (startAt 0xFFFC#16 0x0100#16 0x00#8
      [(0xFFFC, 0xA5#8), (0xFFFD, 0x42#8), (0x0042, 0x84#8)])))
    t.a = 0x84#8 ∧ t.p.z = false ∧ t.p.n = true ∧ t.pc = 0xFFFE#16 ∧ t.cycles = 0 := by decide

/-- V-LDAZ-3: the instruction reads its own opcode. -/
theorem test_lda_zp_own_opcode :
    let t := after (step (running 3 (startAt 0x0010#16 0x0100#16 0x00#8 [(0x0010, 0xA5#8), (0x0011, 0x10#8)])))
    t.a = 0xA5#8 ∧ t.p.n = true ∧ t.p.z = false ∧ t.pc = 0x0012#16 := by decide

/-- V-LDAZX-2: the sum wraps inside the zero page. -/
theorem test_lda_zpx_wraps :
    let t := after (step (running 4 (startAt 0x0200#16 0x0100#16 0x20#8
      [(0x0200, 0xB5#8), (0x0201, 0xF0#8), (0x0010, 0x9C#8), (0x0110, 0x11#8)])))
    t.a = 0x9C#8 ∧ t.p.n = true ∧ t.pc = 0x0202#16 ∧ t.cycles = 0 ∧ t.x = 0x20#8 := by decide

/-- V-LDAZX-4: 0xFF + 0xFF reads 0x00FE. -/
theorem test_lda_zpx_top :
    let t := after (step (running 4 (startAt 0x0200#16 0x0100#16 0xFF#8
      [(0x0200, 0xB5#8), (0x0201, 0xFF#8), (0x00FE, 0x01#8)])))
    t.a = 0x01#8 ∧ t.p = Flags.clear := by decide

/-- V-JSR-4: the high operand byte wraps to 0x0000, and the return address is 0x0000. -/
theorem test_jsr_operand_wraps :
    let t := after (step (running 6 (explicitStart 0xFFFE#16 0x0100#16 0x00#8 0x00#8 0x00#8 allSet
      [(0xFFFE, 0x20#8), (0xFFFF, 0x00#8), (0x0000, 0x40#8), (0x0100, 0x77#8), (0x0101, 0x77#8)])))
    t.pc = 0x4000#16 ∧ t.sp = 0x0101#16 ∧ memByte t.mem 0x0100 = 0x00#8 ∧ memByte t.mem 0x0101 = 0x00#8 ∧
      t.p = allSet ∧ t.cycles = 0 := by decide

/-- V-JSR-10: the push goes over the instruction's own operands, after they were fetched. -/
theorem test_jsr_over_own_operands :
    let t := after (step (running 6 (startAt 0x0100#16 0x0101#16 0x00#8
      [(0x0100, 0x20#8), (0x0101, 0x00#8), (0x0102, 0x50#8)])))
    t.pc = 0x5000#16 ∧ t.sp = 0x0102#16 ∧ memByte t.mem 0x0101 = 0x02#8 ∧ memByte t.mem 0x0102 = 0x01#8 := by decide

/-- V-UNH-4: nothing but PC, the budget and the log changes. -/
theorem test_unhandled_keeps_state :
    after (step (running 1 (explicitStart 0x0200#16 0x0150#16 0x9A#8 0x01#8 0x02#8 allSet [(0x0200, 0xFF#8)]))) =
      { running 1 (explicitStart 0x0200#16 0x0150#16 0x9A#8 0x01#8 0x02#8 allSet [(0x0200, 0xFF#8)]) with
        pc := 0x0201#16, cycles := 0, log := [.unhandledOpcode 0xFF#8] } := by decide

/-- V-UNH-5: PC wraps to 0x0000. -/
theorem test_unhandled_wraps :
    let t := after (step (running 1 (startAt 0xFFFF#16 0x0100#16 0x00#8 [(0xFFFF, 0x02#8)])))
    t.pc = 0x0000#16 ∧ t.log = [.unhandledOpcode 0x02#8] ∧ t.cycles = 0 := by decide

/-! ## Memory, the loop, the host and reset -/

/-- V-MEM-5, V-MEM-4: the word write below the top of memory, and at it. -/
theorem test_word_write_below_top :
    (memWriteWord memInit 0xFFFE#16 0x1234#16) = .ok [(0xFFFE, 0x34#8), (0xFFFF, 0x12#8)] := by decide
theorem test_word_write_at_top :
    (memWriteWord memInit 0xFFFF#16 0x1234#16) = .error (.memOutOfRange 0x10000) := by decide
/-- The canonical form: writing 0x00 takes the entry away (R47). -/
theorem test_write_zero_unlists : memPut [(3, 7#8), (5, 9#8)] 3 0x00#8 = [(5, 9#8)] := by decide
theorem test_unsorted_memory_is_not_wf : Memory.wf [(5, 9#8), (3, 7#8)] = false := by decide

/-- V-EXE-2: with a budget below 0 nothing runs, and execute returns. -/
theorem test_negative_budget_returns :
    after (step (running (-7) State.reset)) = { State.reset with cycles := -7, hostReply := some .done } := by decide

/-- V-RST-1: reset leaves the log. -/
theorem test_reset_keeps_log :
    let t := hostReset { State.reset with log := [.unhandledOpcode 0xFF#8], pc := 0x8006#16, mem := [(0x0100, 0xFE#8)] }
    t.log = [.unhandledOpcode 0xFF#8] ∧ t.pc = 0xFFFC#16 ∧ t.mem = [] := by decide

/-- R151: the two codes. -/
theorem test_error_codes :
    fatalCode (.memOutOfRange 0x10000) = 1 ∧ eventCode (.unhandledOpcode 0xFF#8) = 2 := by decide

/-- A program comes to run from reset: the host's oldest request is served first (log 2). -/
theorem test_host_write_is_served :
    let t := after (step { State.reset with hostQueue := [.memWrite 0xFFFC 0xA9#8, .execute 2] })
    t.mem = [(0xFFFC, 0xA9#8)] ∧ t.hostQueue = [.execute 2] ∧ t.hostReply = some .done := by decide

/-! ## Witnesses: states and operands that meet the hypotheses of each obligation -/

/-- A Ready state at 0x0200 for each opcode, and at the edges of SP. -/
def readyLda : State := running 1 (startAt 0x0200#16 0x0100#16 0x20#8 [(0x0200, 0xB5#8), (0x0201, 0xF0#8)])
def readyJsr (sp : Word) : State :=
  running 1 (startAt 0x0200#16 sp 0x00#8 [(0x0200, 0x20#8), (0x0202, 0x03#8)])
def readyUnhandled : State := running 1 (startAt 0xFFFF#16 0x0100#16 0x00#8 [(0xFFFF, 0xFF#8)])
def faulted : State := { State.reset with run := .faulted, fault := some (.memOutOfRange 0x10000) }

theorem witness_DecodeOfEncodeIsTheInstruction :
    (Instr.unhandled 0xFF#8).WellFormed ∧ (Instr.jsrAbs 0xFFFF#16).WellFormed := by decide

theorem witness_DecodedBytesAreTheEncoding :
    decode [0x20#8, 0x34#8, 0x12#8, 0x99#8] = .ok (.jsrAbs 0x1234#16, [0x99#8]) := by decide

theorem witness_EveryOpcodeByteDecodes :
    (0x1F#8 ≠ 0xA9#8 ∧ 0x1F#8 ≠ 0xA5#8 ∧ 0x1F#8 ≠ 0xB5#8 ∧ 0x1F#8 ≠ 0x20#8) ∧
    (0x21#8 ≠ 0xA9#8 ∧ 0x21#8 ≠ 0xA5#8 ∧ 0x21#8 ≠ 0xB5#8 ∧ 0x21#8 ≠ 0x20#8) := by decide

theorem witness_PlacedTableWordIsWhatStepRuns : decodeTableWord 24 0x123420 = some (.jsrAbs 0x1234#16) := by decide

theorem witness_LdaFlagsFollowTheAccumulator :
    ∃ t, exec (.ldaImm 0x00#8) State.reset = .next t ∧ t.p.z = true := ⟨_, rfl, rfl⟩

theorem witness_LdaFrame : ∃ t, exec (.ldaZpx 0xFF#8) readyLda = .next t :=
  ⟨_, eq_next_after (by decide)⟩

theorem witness_JsrResult : State.reset.sp ≠ 0xFFFF#16 ∧ (readyJsr 0xFFFE#16).sp ≠ 0xFFFF#16 := by decide

theorem witness_JsrStepJumpsAndStoresReturnAddress :
    (readyJsr 0xFFFE#16).Ready ∧ byteAtPC (readyJsr 0xFFFE#16) 0 = 0x20#8 ∧ (readyJsr 0xFFFE#16).sp ≠ 0xFFFF#16 := by
  decide

/-- V-JSR-6. -/
theorem witness_JsrAtTopOfMemoryIsFatal :
    (readyJsr 0xFFFF#16).sp = 0xFFFF#16 ∧
      (after (step (readyJsr 0xFFFF#16))).fault = some (.memOutOfRange 0x10000) ∧
      (after (step (readyJsr 0xFFFF#16))).run = .faulted := by decide

theorem witness_JsrFrame :
    (readyJsr 0xFFFE#16).sp ≠ 0xFFFF#16 ∧ ∃ t, exec (.jsrAbs 0x0300#16) (readyJsr 0xFFFE#16) = .next t :=
  ⟨by decide, _, eq_next_after (by decide)⟩

theorem witness_SecondCallOverwritesFirstReturn :
    (readyJsr 0xFFFD#16).sp.toNat < 0xFFFE ∧ ∃ u w, exec (.jsrAbs 0x9000#16) (readyJsr 0xFFFD#16) = .next u ∧
      exec (.jsrAbs 0xA000#16) u = .next w :=
  ⟨by decide, _, _, eq_next_after (by decide), eq_next_after (by decide)⟩

theorem witness_PushedBytesAreFetchedAtOnce :
    (readyJsr 0xFFFE#16).sp ≠ 0xFFFF#16 ∧ ∃ t, exec (.jsrAbs 0xFFFE#16) (readyJsr 0xFFFE#16) = .next t :=
  ⟨by decide, _, eq_next_after (by decide)⟩

theorem witness_UnhandledFrame : ∃ t, exec (.unhandled 0x00#8) State.reset = .next t := ⟨_, rfl⟩

theorem witness_UnmappedOpcodeIsReportedAndTheLoopGoesOn :
    readyUnhandled.Ready ∧ byteAtPC readyUnhandled 0 ∉ [0xA9#8, 0xA5#8, 0xB5#8, 0x20#8] ∧
      0 < (after (step { readyUnhandled with cycles := 2 })).cycles := by decide

theorem witness_StepRunsTheDecodedInstruction :
    readyJsr 0x0100#16 = { readyJsr 0x0100#16 with run := .running } ∧ 0 < (readyJsr 0x0100#16).cycles ∧
      decode [memByte (readyJsr 0x0100#16).mem (readyJsr 0x0100#16).pc.toNat,
        memByte (readyJsr 0x0100#16).mem ((readyJsr 0x0100#16).pc + 1#16).toNat,
        memByte (readyJsr 0x0100#16).mem ((readyJsr 0x0100#16).pc + 2#16).toNat] = .ok (.jsrAbs 0x0300#16, []) := by
  decide

theorem witness_BudgetIsTestedBeforeEachInstruction :
    (running 1 State.reset).run = .running ∧ 0 < (running 1 State.reset).cycles ∧
      (running 0 State.reset).run = .running ∧ (running 0 State.reset).cycles ≤ 0 := by decide

theorem witness_StepIsThePseudocodeExecuteOne : readyLda.Ready ∧ (readyJsr 0xFFFF#16).Ready := by decide

theorem witness_StepChargesTheTableTotal :
    ∃ t, (readyJsr 0xFFFE#16).Ready ∧ step (readyJsr 0xFFFE#16) = .next t ∧ t.run ≠ .faulted ∧ t.cycles = -5 :=
  ⟨_, by decide, eq_next_after (by decide), by decide, by decide⟩

theorem witness_CounterFitsAHardwareBuild :
    ∃ t, Config.minBudgetBits ≤ 32 ∧ readyLda.Ready ∧ readyLda.cycles < 2 ^ (32 - 1) ∧ step readyLda = .next t ∧
      t.run ≠ .faulted :=
  ⟨_, by decide, by decide, by decide, eq_next_after (by decide), by decide⟩

theorem witness_StepMovesTheProgramCounter :
    (∃ t, (readyJsr 0x0100#16).Ready ∧ step (readyJsr 0x0100#16) = .next t ∧ t.run ≠ .faulted ∧
      byteAtPC (readyJsr 0x0100#16) 0 = 0x20#8) ∧
    ∃ t, readyUnhandled.Ready ∧ step readyUnhandled = .next t ∧ t.run ≠ .faulted ∧ byteAtPC readyUnhandled 0 ≠ 0x20#8 :=
  ⟨⟨_, by decide, eq_next_after (by decide), by decide, by decide⟩,
    ⟨_, by decide, eq_next_after (by decide), by decide, by decide⟩⟩

theorem witness_OnlyACallAtTheTopFaults :
    (∃ t, (readyJsr 0xFFFF#16).Ready ∧ step (readyJsr 0xFFFF#16) = .next t ∧ t.run = .faulted) ∧
    ∃ t, (readyJsr 0xFFFE#16).Ready ∧ step (readyJsr 0xFFFE#16) = .next t ∧ t.run ≠ .faulted :=
  ⟨⟨_, by decide, eq_next_after (by decide), by decide⟩, ⟨_, by decide, eq_next_after (by decide), by decide⟩⟩

theorem witness_OnlyCallsWriteMemory :
    ∃ t, (readyJsr 0xFFFE#16).Ready ∧ step (readyJsr 0xFFFE#16) = .next t ∧ t.run ≠ .faulted ∧
      memByte t.mem 0xFFFF ≠ memByte (readyJsr 0xFFFE#16).mem 0xFFFF :=
  ⟨_, by decide, eq_next_after (by decide), by decide, by decide⟩

theorem witness_OnlyResetWritesXAndY :
    ∃ t, step { State.reset with y := 0x05#8, hostQueue := [.reset] } = .next t ∧ t.run ≠ .faulted ∧
      t.y ≠ 0x05#8 :=
  ⟨_, eq_next_after (by decide), by decide, by decide⟩

theorem witness_FlagWritersAreResetAndLda :
    ∃ t, step (running 1 (startAt 0x0200#16 0x0100#16 0x00#8 [(0x0200, 0xA9#8)])) = .next t ∧ t.run ≠ .faulted ∧
      ((running 1 (startAt 0x0200#16 0x0100#16 0x00#8 [(0x0200, 0xA9#8)])).run ≠ .idle) ∧ t.p.z ≠ false :=
  ⟨_, eq_next_after (by decide), by decide, by decide, by decide⟩

theorem witness_OnlyUnhandledOpcodesExtendTheLog :
    ∃ t, step readyUnhandled = .next t ∧ t.run ≠ .faulted ∧ t.log ≠ readyUnhandled.log :=
  ⟨_, eq_next_after (by decide), by decide, by decide⟩

theorem witness_StackPointerOnlyRisesByCalls :
    ∃ t, (readyJsr 0xFFFE#16).Ready ∧ step (readyJsr 0xFFFE#16) = .next t ∧ t.run ≠ .faulted ∧ t.sp = 0xFFFF#16 :=
  ⟨_, by decide, eq_next_after (by decide), by decide, by decide⟩

theorem witness_AccumulatorYFlagsAndLogSteerNothing : ∃ t, readyLda.Ready ∧ step readyLda = .next t :=
  ⟨_, by decide, eq_next_after (by decide)⟩

theorem witness_EveryStepKeepsTheStateGood :
    (∃ t, (readyJsr 0xFFFF#16).Good ∧ step (readyJsr 0xFFFF#16) = .next t) ∧
    ∃ t, State.reset.Good ∧ step State.reset = .next t :=
  ⟨⟨_, by decide, eq_next_after (by decide)⟩, ⟨_, by decide, rfl⟩⟩

theorem witness_FaultIsNeverCleared :
    ∃ t, ({ faulted with hostQueue := [.readState, .reset] } : State).Good ∧ faulted.fault ≠ none ∧
      step { faulted with hostQueue := [.readState, .reset] } = .next t :=
  ⟨_, by decide, by decide, eq_next_after (by decide)⟩

theorem witness_FaultedBlockHasNoStep :
    (({ faulted with hostQueue := [.readState] } : State).run = .faulted ∧
      ({ faulted with hostQueue := [.readState] } : State).hostQueue = .readState :: []) ∧
    ({ faulted with hostQueue := [.reset] } : State).run = .faulted ∧
      ∀ rest, ({ faulted with hostQueue := [.reset] } : State).hostQueue ≠ .readState :: rest :=
  ⟨⟨rfl, rfl⟩, rfl, fun _ h => by cases h⟩

/-- V-MEM-1 and V-MEM-2, at the edges of the memory. -/
theorem witness_ReadAfterWriteGivesTheValue :
    65535 < 65536 ∧ (∀ c ∈ [(0, 1#8), (65534, 2#8)], c.1 ≠ 65535) ∧ 65536 ≤ 65536 := by decide

theorem witness_WordWriteIsLittleEndianAndExact : 0xFFFE#16 ≠ 0xFFFF#16 ∧ 0xFFFF#16 = 0xFFFF#16 := by decide

theorem witness_ResetYieldsItsValuesFromAnyState :
    ({ State.reset with hostQueue := [.reset] } : State).run = .idle ∧
      ({ State.reset with hostQueue := [.reset] } : State).hostQueue = .reset :: [] := by decide

theorem witness_ResetKeepsLogFaultAndRun :
    ∃ t, ({ State.reset with hostQueue := [.reset] } : State).run = .idle ∧
      ({ State.reset with hostQueue := [.reset] } : State).hostQueue = .reset :: [] ∧
      step { State.reset with hostQueue := [.reset] } = .next t :=
  ⟨_, by decide, by decide, eq_next_after (by decide)⟩

theorem witness_FirstOpcodeAfterResetIsAtFFFC : (0 : Int) < 1 := by decide

theorem witness_HostMemoryAccess :
    State.reset.run = .idle ∧
      ({ State.reset with hostQueue := [.memWrite 65535 1#8] } : State).hostQueue = .memWrite 65535 1#8 :: [] ∧
      ({ State.reset with hostQueue := [.memRead 65536] } : State).hostQueue = .memRead 65536 :: [] ∧
      65535 < 65536 ∧ 65536 ≤ 65536 := by decide

theorem witness_ExecuteRequestLoadsTheBudget :
    ({ State.reset with hostQueue := [.execute 3] } : State).run = .idle ∧
      ({ State.reset with hostQueue := [.execute 3] } : State).hostQueue = .execute 3 :: [] ∧
      ({ State.reset with hostQueue := [.execute 3] } : State).hostError = none ∧
      ({ State.reset with hostQueue := [.execute 3], hostError := some 65536 } : State).hostError = some 65536 := by
  decide

/-- A byte given, given again, and followed by cells elsewhere, one of them outside the memory; and one never given. -/
theorem witness_ExplicitStartIsAGoodLaunch :
    65535 < 65536 ∧ (∀ c ∈ [(0, 1#8), (65536, 2#8)], c.1 ≠ 65535) ∧
      memByte (startAt 0x0200#16 0x0100#16 0x00#8 ([(65535, 8#8)] ++ [(65535, 9#8)] ++ [(0, 1#8), (65536, 2#8)])).mem
        65535 = 9#8 ∧
      (∀ c ∈ [(0, 1#8), (65536, 2#8)], c.1 ≠ 1) := by decide

theorem witness_HostReadsTheState :
    faulted.run ≠ .running ∧ State.reset.run ≠ .running ∧
      ({ faulted with hostQueue := [.readState] } : State).hostQueue = .readState :: [] := by decide

theorem witness_IdleBlockKeepsItsState : State.reset.run = .idle ∧ State.reset.hostQueue = [] := by decide

theorem witness_ExecuteWithoutBudgetRunsNothing :
    (0 : Int) ≤ 0 ∧ (-7 : Int) ≤ 0 ∧ State.reset.run = .idle ∧ State.reset.hostError = none := by decide

theorem witness_ExactBudgetRunsOneInstruction :
    (startAt 0x0200#16 0xFFFE#16 0x00#8 [(0x0200, 0x20#8)]).IsLaunch ∧
      (startAt 0x0200#16 0xFFFE#16 0x00#8 [(0x0200, 0x20#8)]).sp ≠ 0xFFFF#16 := by decide

theorem witness_ExecuteOneSingleSteps :
    (∃ u, State.reset.IsLaunch ∧
      exec (instrAtPC State.reset) { State.reset with cycles := 1, run := .running, hostReply := none } = .next u ∧
      u.run = .running) ∧
    ∃ u, (startAt 0x0200#16 0xFFFF#16 0x00#8 [(0x0200, 0x20#8)]).IsLaunch ∧
      exec (instrAtPC (startAt 0x0200#16 0xFFFF#16 0x00#8 [(0x0200, 0x20#8)]))
        { startAt 0x0200#16 0xFFFF#16 0x00#8 [(0x0200, 0x20#8)] with
          cycles := 1, run := .running, hostReply := none } = .next u ∧ u.run = .faulted :=
  ⟨⟨_, by decide, eq_next_after (by decide), by decide⟩, ⟨_, by decide, eq_next_after (by decide), by decide⟩⟩

theorem witness_ExecuteAlwaysEnds : State.reset.IsLaunch := by decide

theorem witness_OvershootIsLessThanOneInstruction :
    ∃ t, ({ readyJsr 0x0100#16 with run := .idle } : State).run = .idle ∧ (0 : Int) < 1 ∧
      execute 1 { readyJsr 0x0100#16 with run := .idle } = .next t ∧ t.run = .idle ∧ t.cycles = -5 :=
  ⟨_, by decide, by decide, eq_next_after (by decide), by decide, by decide⟩

theorem witness_SteppedExecuteIsTheWholeCall :
    ({ State.reset with hostQueue := [.execute 1] } : State).run = .idle ∧
      ({ State.reset with hostQueue := [.execute 1] } : State).hostError = none ∧
      ({ State.reset with hostQueue := [.execute 1] } : State).hostQueue = .execute 1 :: [] := by decide

theorem witness_SplitBudgetsCompose :
    ∃ t u, ({ readyJsr 0x0100#16 with run := .idle } : State).run = .idle ∧ (0 : Int) ≤ 6 ∧
      execute 1 { readyJsr 0x0100#16 with run := .idle } = .next t ∧ t.run = .idle ∧
      execute (t.cycles + 6) t = .next u ∧ u.run = .idle :=
  ⟨_, _, by decide, by decide, eq_next_after (by decide), by decide, eq_next_after (by decide), by decide⟩

/-- V-RST-2: a faulted block has no reset step; nor an execute. -/
theorem witness_HostOperationsRequireAnIdleBlock :
    (faulted.run = .faulted ∧ HostOp.reset ≠ .readState ∧ HostOp.execute 1 ≠ .readState) ∧
      (running 1 State.reset).run = .running := by decide

/-- V-JSR-6 as a whole call. -/
theorem witness_ExecuteOfACallAtTheTopEndsFaulted :
    (0 : Int) < 1 ∧ (startAt 0x0200#16 0xFFFF#16 0x00#8 [(0x0200, 0x20#8)]).IsLaunch ∧
      byteAtPC (startAt 0x0200#16 0xFFFF#16 0x00#8 [(0x0200, 0x20#8)]) 0 = 0x20#8 ∧
      (startAt 0x0200#16 0xFFFF#16 0x00#8 [(0x0200, 0x20#8)]).sp = 0xFFFF#16 := by decide

end Sys2Proof.Tests
end

section
/-! PROOF. The family 20_memory.md: a read after a write (R46), and the two-byte write (R44, R84). -/

namespace Sys2Proof.Machine

/-- Writes at other addresses, one after another, leave a byte alone (R42). -/
theorem memByte_foldl_memPut_of_ne (others : List (Nat × Byte)) (m : Memory) {addr : Nat}
    (h : ∀ c ∈ others, c.1 ≠ addr) :
    memByte (others.foldl (fun m c => memPut m c.1 c.2) m) addr = memByte m addr := by
  induction others generalizing m with
  | nil => rfl
  | cons c others ih =>
    obtain ⟨hc, hothers⟩ := List.forall_mem_cons.mp h
    rw [List.foldl_cons, ih _ hothers, memByte_memPut_of_ne m c.2 hc.symm]

/-- Settles O37: the byte put survives the writes elsewhere, by induction on their list; both primitives raise past the
capacity. -/
theorem readAfterWriteGivesTheValue : Obligations.ReadAfterWriteGivesTheValue := by
  intro m addr v
  refine ⟨fun hlt => ⟨memPut m addr v, memWrite_of_lt m v hlt, fun others hne => ?_⟩,
    fun hge => ⟨memWrite_of_ge m v hge, memRead_of_ge m hge⟩⟩
  rw [memRead_of_lt _ hlt, memByte_foldl_memPut_of_ne others _ hne, memByte_memPut_self]

/-- Settles O38: below the top of memory the word write is two byte writes at different addresses, so each byte reads
back and the others stay; at the top the second byte write raises. -/
theorem wordWriteIsLittleEndianAndExact : Obligations.WordWriteIsLittleEndianAndExact := by
  intro addr v s
  refine ⟨fun hne => ?_, fun htop => htop ▸ writeWord_top v s⟩
  have hlt : addr.toNat < 65535 := (word_lt_or_top addr).resolve_right hne
  refine ⟨_, writeWord_of_lt v s hlt, ?_, memByte_memPut_self _ _ _, fun b hlow hhigh => ?_⟩
  · rw [memByte_memPut_of_ne _ _ (Nat.ne_of_lt (Nat.lt_succ_self _)), memByte_memPut_self]
  · rw [memByte_memPut_of_ne _ _ hhigh, memByte_memPut_of_ne _ _ hlow]

end Sys2Proof.Machine
end

section
/-! PROOF. The family 30_encoding.md: every opcode byte decodes (R63), and an unmapped one is reported and the loop goes
on (R65, R141). -/

namespace Sys2Proof

/-! ## The decoder -/

/-- An unmapped opcode is one byte long (R64). -/
theorem lengthOf_of_not_mapped {op : Byte} (h : op ∉ mappedOpcodes) : lengthOf op = 1 := by
  simp [lengthOf, lookup_of_not_mapped h]

/-- An unmapped opcode's instruction is `unhandled`, whatever bytes follow it (R65). -/
theorem instrOf_of_not_mapped {op : Byte} (b1 b2 : Byte) (h : op ∉ mappedOpcodes) :
    instrOf op b1 b2 = .unhandled op := by
  simp [instrOf, lookup_of_not_mapped h]

/-- The longest instruction is three bytes (R60, R64). -/
theorem lengthOf_le_three (op : Byte) : lengthOf op ≤ 3 := by
  by_cases h : op ∈ mappedOpcodes
  · have mapped_le : ∀ op ∈ mappedOpcodes, lengthOf op ≤ 3 := by decide
    exact mapped_le op h
  · rw [lengthOf_of_not_mapped h]
    decide

/-- With two bytes after the opcode no instruction is truncated (R63, R64). -/
theorem decode_cons_cons_cons (op b1 b2 : Byte) (rest : List Byte) :
    decode (op :: b1 :: b2 :: rest) = .ok (instrOf op b1 b2, (b1 :: b2 :: rest).drop (lengthOf op - 1)) := by
  have hlen : ¬ (b1 :: b2 :: rest).length + 1 < lengthOf op := by
    have := lengthOf_le_three op
    simp only [List.length_cons]
    omega
  rw [decode_cons, if_neg hlen]
  rfl

/-- Settles O4: three bytes always decode to `instrOf` and the bytes past the opcode's length; each mapped opcode then
computes, and an unmapped one is the one-byte `unhandled`. -/
theorem everyOpcodeByteDecodes : Obligations.EveryOpcodeByteDecodes := by
  intro op b1 b2 rest
  rw [decode_cons_cons_cons]
  refine ⟨?ldaImm, ?ldaZp, ?ldaZpx, ?jsrAbs, ?unhandled⟩
  case ldaImm => rintro rfl; rfl
  case ldaZp => rintro rfl; rfl
  case ldaZpx => rintro rfl; rfl
  case jsrAbs => rintro rfl; rfl
  case unhandled =>
    intro hImm hZp hZpx hJsr
    have unmapped : op ∉ mappedOpcodes := by simp [mappedOpcodes, hImm, hZp, hZpx, hJsr]
    rw [instrOf_of_not_mapped b1 b2 unmapped, lengthOf_of_not_mapped unmapped]
    rfl

end Sys2Proof

namespace Sys2Proof.Machine

/-! ## The step -/

/-- A Ready block runs the instruction at the program counter (R101, R103). -/
theorem step_of_ready {s : State} (h : s.Ready) : step s = exec (instrAtPC s) s := by
  obtain ⟨hrun, hbudget⟩ := h
  simp [step, stepRunning, hrun, hbudget]

/-- The default handler's whole effect: the opcode fetch and one report (R140). -/
theorem exec_unhandled (op : Byte) (s : State) : exec (.unhandled op) s = .next (report op (advance s)) := rfl

/-- A Ready block at an unmapped opcode fetches and reports it (R65, R140). -/
theorem step_of_not_mapped {s : State} (h : s.Ready) (hop : byteAtPC s 0 ∉ mappedOpcodes) :
    step s = .next (report (byteAtPC s 0) (advance s)) := by
  rw [step_of_ready h, instrAtPC, instrOf_of_not_mapped _ _ hop, exec_unhandled]

/-- Settles O19: the next state is the report after the fetch, whose fields the state's laws give; it is still Running,
so with budget left it is Ready again. -/
theorem unmappedOpcodeIsReportedAndTheLoopGoesOn : Obligations.UnmappedOpcodeIsReportedAndTheLoopGoesOn := by
  intro s hready hop
  have hrun : (report (byteAtPC s 0) (advance s)).run = .running := by simp [hready.1]
  refine ⟨_, step_of_not_mapped hready hop, hrun, ?_, ?_, ?_, ?_, ?_, ?_, ?_,
    fun hbudget => step_of_ready ⟨hrun, hbudget⟩⟩ <;> simp

end Sys2Proof.Machine
end

section
/-! PROOF. The family 41_dispatch_fsm.md: a step is the spec's executeOne, fetch by fetch (R102). The step decodes the
three bytes at the program counter and then executes; executeOne fetches the opcode, and each handler its own operands. -/

namespace Sys2Proof.Machine

/-! ## The byte a fetch reads, and the byte the decoder is given -/

/-- The opcode the decoder is given is the byte the first fetch reads (R80). -/
theorem byteAtPC_zero (s : State) : byteAtPC s 0 = memByte s.mem s.pc.toNat := by
  simp [byteAtPC]

/-- One fetch moves every place in the window one nearer the program counter, modulo 2^16 (R80, decision D5). -/
theorem byteAtPC_advance (s : State) (k : Nat) : byteAtPC (advance s) k = byteAtPC s (k + 1) := by
  have hplace : inc16 s.pc + BitVec.ofNat 16 k = s.pc + BitVec.ofNat 16 (k + 1) := by
    rw [inc16, BitVec.add_assoc, ← BitVec.ofNat_add, Nat.add_comm 1 k]
  rw [byteAtPC, byteAtPC, advance_pc, advance_mem, hplace]

/-- A fetch answers the byte at the program counter (R80). -/
theorem fetchByte_eq_byteAtPC (s : State) : fetchByte s = .ok (byteAtPC s 0, advance s) := by
  rw [fetchByte_eq, byteAtPC_zero]

/-- The two fetches of an absolute operand answer the next two bytes, the low one first (R82, R83). -/
theorem fetchAbsoluteAddress_eq_byteAtPC (s : State) :
    fetchAbsoluteAddress s = .ok (wordOf (byteAtPC s 1) (byteAtPC s 0), advance (advance s)) := by
  rw [fetchAbsoluteAddress_eq, byteAtPC_zero, ← byteAtPC_advance, byteAtPC_zero, advance_mem, advance_pc]

/-! ## Each handler after the opcode fetch is the meaning of the decoded instruction -/

/-- R120: the handler's fetch is the immediate resolver on the decoded operand (R85). -/
theorem conclude_pseudoLdaImm (s : State) :
    conclude s (pseudoLdaImm (advance s)) = exec (.ldaImm (byteAtPC s 1)) s := by
  rw [pseudoLdaImm, fetchByte_eq_byteAtPC, byteAtPC_advance]
  rfl

/-- R121: the handler's fetch and data read are the zero-page resolver on the decoded operand (R86). -/
theorem conclude_pseudoLdaZp (s : State) :
    conclude s (pseudoLdaZp (advance s)) = exec (.ldaZp (byteAtPC s 1)) s := by
  simp only [pseudoLdaZp, fetchByte_eq_byteAtPC, byteAtPC_advance]
  rfl

/-- R122: the operand fetch leaves `X` alone, so the indexed address is that of the resolver (R87). -/
theorem conclude_pseudoLdaZpx (s : State) :
    conclude s (pseudoLdaZpx (advance s)) = exec (.ldaZpx (byteAtPC s 1)) s := by
  simp only [pseudoLdaZpx, fetchByte_eq_byteAtPC, byteAtPC_advance]
  rfl

/-- R130: the handler's two fetches give the decoded target, and the call begins past them in both (R88). -/
theorem conclude_pseudoJsrAbs (s : State) :
    conclude s (pseudoJsrAbs (advance s)) = exec (.jsrAbs (wordOf (byteAtPC s 2) (byteAtPC s 1))) s := by
  simp only [pseudoJsrAbs, fetchAbsoluteAddress_eq_byteAtPC, byteAtPC_advance]
  rfl

/-! ## The step -/

/-- Decode and execute is executeOne: both look the same opcode up, once, and the row's handler agrees (R102). -/
theorem exec_instrAtPC_eq_executeOne (s : State) : exec (instrAtPC s) s = conclude s (executeOne s) := by
  simp only [instrAtPC, instrOf, executeOne, fetchByte_eq_byteAtPC]
  cases lookup (byteAtPC s 0) with
  | none => exact exec_unhandled _ s
  | some row =>
    obtain ⟨_, handler, _, _, _, _⟩ := row
    cases handler with
    | ldaImm => exact (conclude_pseudoLdaImm s).symm
    | ldaZp => exact (conclude_pseudoLdaZp s).symm
    | ldaZpx => exact (conclude_pseudoLdaZpx s).symm
    | jsrAbs => exact (conclude_pseudoJsrAbs s).symm

/-- Settles O22: a Ready step executes the decoded instruction, which is executeOne handler by handler. -/
theorem stepIsThePseudocodeExecuteOne : Obligations.StepIsThePseudocodeExecuteOne :=
  fun s hready => (step_of_ready hready).trans (exec_instrAtPC_eq_executeOne s)

end Sys2Proof.Machine
end

section
/-! PROOF. The family 42_load.md: the three LDA forms end in one shape of state (R120 to R123), and the zero-page form's
encoding and whole next state (R121). -/

namespace Sys2Proof.Machine

/-! ## Charges and fetches in sequence -/

/-- Two charges are one of their sum (00_scope.md R13). -/
theorem charge_charge (m n : Nat) (s : State) : charge n (charge m s) = charge (m + n) s := by
  have hcycles : s.cycles - m - n = s.cycles - (m + n : Nat) := by omega
  simp only [charge, hcycles]

/-- The opcode fetch and one operand fetch: PC two up modulo 2^16, 2 cycles (R80, decision D5). -/
theorem advance_advance (s : State) : advance (advance s) = charge 2 { s with pc := s.pc + 2#16 } := by
  have hpc : inc16 (inc16 s.pc) = s.pc + 2#16 := BitVec.add_assoc s.pc 1#16 1#16
  rw [← hpc]
  exact charge_charge 1 1 { s with pc := inc16 (inc16 s.pc) }

/-! ## The LDA family -/

/-- The state an LDA form leaves that loads `v` and costs `n` cycles in all (R107, R123). -/
def afterLda (v : Byte) (n : Nat) (s : State) : State :=
  { charge n { s with pc := s.pc + 2#16 } with a := v, p := setZN v s.p }

/-- The family's common end: the two fetches, the mode's `n` further cycles, and the load (R123). -/
theorem conclude_loadA_after_fetches (v : Byte) (n : Nat) (s : State) :
    conclude s (loadA (.ok (v, charge n (advance (advance s))))) = .next (afterLda v (2 + n) s) := by
  rw [advance_advance, charge_charge]
  rfl

/-- LDA immediate loads its operand, 2 cycles (R120). -/
theorem exec_ldaImm (imm : Byte) (s : State) : exec (.ldaImm imm) s = .next (afterLda imm 2 s) :=
  calc exec (.ldaImm imm) s
    _ = conclude s (loadA (.ok (imm, advance (advance s)))) := rfl
    _ = .next (afterLda imm 2 s) := by rw [advance_advance]; rfl

/-- LDA zero page loads the byte at its operand, 3 cycles (R121). -/
theorem exec_ldaZp (zp : Byte) (s : State) :
    exec (.ldaZp zp) s = .next (afterLda (memByte s.mem zp.toNat) 3 s) :=
  calc exec (.ldaZp zp) s
    _ = conclude s (loadA (resolveZeroPage zp (advance s))) := rfl
    _ = conclude s (loadA (.ok (memByte s.mem zp.toNat, charge 1 (advance (advance s))))) := by
      rw [resolveZeroPage_eq, advance_mem, zeroPageAddr, zext16_toNat]
    _ = .next (afterLda (memByte s.mem zp.toNat) 3 s) := conclude_loadA_after_fetches _ 1 s

/-- LDA zero page,X loads the byte at its indexed address, 4 cycles (R122, decision D7). -/
theorem exec_ldaZpx (zp : Byte) (s : State) :
    exec (.ldaZpx zp) s = .next (afterLda (memByte s.mem (zeroPageXAddr zp s.x).toNat) 4 s) :=
  calc exec (.ldaZpx zp) s
    _ = conclude s (loadA (resolveZeroPageX zp (advance s))) := rfl
    _ = conclude s (loadA (.ok (memByte s.mem (zeroPageXAddr zp s.x).toNat, charge 2 (advance (advance s))))) := by
      rw [resolveZeroPageX_eq, advance_mem, advance_x, charge_charge]
    _ = .next (afterLda (memByte s.mem (zeroPageXAddr zp s.x).toNat) 4 s) := conclude_loadA_after_fetches _ 2 s

/-- Whatever its form, an LDA ends in `afterLda` of the byte it loads and the cycles it costs. -/
theorem lda_next {i : Instr} {v : Byte} {s t : State} (hlda : i = .ldaImm v ∨ i = .ldaZp v ∨ i = .ldaZpx v)
    (h : exec i s = .next t) : ∃ w n, t = afterLda w n s := by
  obtain rfl | rfl | rfl := hlda
  · rw [exec_ldaImm] at h; cases h; exact ⟨_, _, rfl⟩
  · rw [exec_ldaZp] at h; cases h; exact ⟨_, _, rfl⟩
  · rw [exec_ldaZpx] at h; cases h; exact ⟨_, _, rfl⟩

/-- Settles O7: opcode 0xA5 takes both bytes, and the whole next state is `afterLda` of the zero-page byte. -/
theorem ldaZeroPageResult : Obligations.LdaZeroPageResult :=
  fun zp s => ⟨rfl, exec_ldaZp zp s⟩

/-- Settles O9: every form ends in `afterLda`, which sets Z and N from the new A and leaves the rest. -/
theorem ldaFlagsFollowTheAccumulator : Obligations.LdaFlagsFollowTheAccumulator := by
  intro i v s t hlda h
  obtain ⟨w, n, rfl⟩ := lda_next hlda h
  simp [afterLda, zflag, nflag]

end Sys2Proof.Machine
end

section
/-! PROOF. The family 70_reset_and_hazards.md: a reset request on an Idle block is served by `hostReset`, which gives
every register, flag and memory byte its reset value (R180, R183). -/

namespace Sys2Proof.Machine

/-- An Idle block with a request serves the oldest one, off the list (R103, R188). -/
theorem step_of_idle_cons {s : State} {op : HostOp} {rest : List HostOp} (hrun : s.run = .idle)
    (hqueue : s.hostQueue = op :: rest) : step s = hostServe op { s with hostQueue := rest } := by
  simp [step, stepIdle, hrun, hqueue]

/-- An Idle block serves a reset (R180). -/
theorem hostServe_reset_of_idle {s : State} (hrun : s.run = .idle) : hostServe .reset s = .next (hostReset s) :=
  requireIdle_of_idle _ hrun

/-- The step of an Idle block whose oldest request is a reset (R180). -/
theorem step_of_idle_reset {s : State} {rest : List HostOp} (hrun : s.run = .idle)
    (hqueue : s.hostQueue = .reset :: rest) : step s = .next (hostReset { s with hostQueue := rest }) :=
  (step_of_idle_cons hrun hqueue).trans (hostServe_reset_of_idle hrun)

/-- Settles O39: the step is `hostReset`, whose registers and flags are constants and whose memory, like that of
`State.reset`, is `memInit`. -/
theorem resetYieldsItsValuesFromAnyState : Obligations.ResetYieldsItsValuesFromAnyState := by
  intro s rest hrun hqueue
  constructor
  · exact ⟨_, step_of_idle_reset hrun hqueue, rfl, rfl, rfl, rfl, rfl, rfl, memByte_memInit⟩
  · exact ⟨rfl, rfl, rfl, rfl, rfl, rfl, memByte_memInit⟩

end Sys2Proof.Machine
end

section
/-! PROOF. The round trip of the encoding (30_encoding.md R60 to R65): a decoded list is exactly the encoding of what it
decodes to, and every well-formed instruction's encoding decodes to it. -/

namespace Sys2Proof

/-- Where no byte of the instruction is missing, the decoder takes as many bytes as the opcode's length (R64). -/
theorem decode_cons_of_le {op : Byte} {tail : List Byte} (h : lengthOf op ≤ tail.length + 1) :
    decode (op :: tail) =
      .ok (instrOf op (tail.getD 0 0#8) (tail.getD 1 0#8), tail.drop (lengthOf op - 1)) := by
  rw [decode_cons, if_neg (Nat.not_lt.mpr h)]

/-- What a list that decodes looks like: an opcode with all its operand bytes after it (R63, R64). -/
theorem decode_ok {bs rest : List Byte} {i : Instr} (h : decode bs = .ok (i, rest)) :
    ∃ op tail, bs = op :: tail ∧ lengthOf op ≤ tail.length + 1 ∧
      i = instrOf op (tail.getD 0 0#8) (tail.getD 1 0#8) ∧ rest = tail.drop (lengthOf op - 1) := by
  cases bs with
  | nil => cases h
  | cons op tail =>
    by_cases hlen : lengthOf op ≤ tail.length + 1
    · rw [decode_cons_of_le hlen] at h
      cases h
      exact ⟨op, tail, rfl, hlen, rfl, rfl⟩
    · rw [decode_cons, if_pos (Nat.not_le.mp hlen)] at h
      cases h

/-- The check of an `unhandled` term is that its opcode is unmapped (R65). -/
theorem wf_unhandled {op : Byte} : (Instr.unhandled op).WellFormed ↔ op ∉ mappedOpcodes := by
  simp [Instr.WellFormed, Instr.wf]

/-- An operand byte after the opcode is there when the length asks for it. -/
theorem eq_cons_of_two_le {tail : List Byte} (h : 2 ≤ tail.length + 1) :
    tail = tail.getD 0 0#8 :: tail.drop 1 := by
  cases tail with
  | nil => simp at h
  | cons b tail => rfl

/-- Both operand bytes after the opcode are there when the length asks for them. -/
theorem eq_cons_cons_of_three_le {tail : List Byte} (h : 3 ≤ tail.length + 1) :
    tail = tail.getD 0 0#8 :: tail.getD 1 0#8 :: tail.drop 2 := by
  match tail with
  | [] | [_] => simp at h
  | _ :: _ :: _ => rfl

/-- Settles O2: each form has all its bytes, so the decoder takes them; the word of a JSR is put together from its two
halves, and an `unhandled` opcode is unmapped because the term is well formed. -/
theorem decodeOfEncodeIsTheInstruction : Obligations.DecodeOfEncodeIsTheInstruction := by
  intro i rest hwf
  cases i with
  | ldaImm imm => exact decode_cons_of_le (op := 0xA9#8) (tail := imm :: rest) (Nat.le_add_left 2 _)
  | ldaZp zp => exact decode_cons_of_le (op := 0xA5#8) (tail := zp :: rest) (Nat.le_add_left 2 _)
  | ldaZpx zp => exact decode_cons_of_le (op := 0xB5#8) (tail := zp :: rest) (Nat.le_add_left 2 _)
  | jsrAbs target =>
    calc decode (encode (.jsrAbs target) ++ rest)
      _ = .ok (.jsrAbs (wordOf (highByte target) (lowByte target)), rest) :=
        decode_cons_cons_cons 0x20#8 (lowByte target) (highByte target) rest
      _ = .ok (.jsrAbs target, rest) := by rw [wordOf_highByte_lowByte]
  | unhandled op =>
    have unmapped : op ∉ mappedOpcodes := wf_unhandled.mp hwf
    have hlen := lengthOf_of_not_mapped unmapped
    calc decode (op :: rest)
      _ = .ok (instrOf op (rest.getD 0 0#8) (rest.getD 1 0#8), rest.drop (lengthOf op - 1)) :=
        decode_cons_of_le (by omega)
      _ = .ok (.unhandled op, rest) := by rw [instrOf_of_not_mapped _ _ unmapped, hlen]; rfl

/-- Settles O3: the list begins with an opcode, and each of the five cases of the opcode says how many bytes follow and
what instruction they are. -/
theorem decodedBytesAreTheEncoding : Obligations.DecodedBytesAreTheEncoding := by
  intro bs rest i h
  obtain ⟨op, tail, rfl, hlen, rfl, rfl⟩ := decode_ok h
  obtain ⟨rfl, hi⟩ | ⟨rfl, hi⟩ | ⟨rfl, hi⟩ | ⟨rfl, hi⟩ | ⟨unmapped, hi⟩ :=
    instrOf_cases op (tail.getD 0 0#8) (tail.getD 1 0#8) <;> rw [hi]
  case inl | inr.inl | inr.inr.inl =>
    exact ⟨congrArg (_ :: ·) (eq_cons_of_two_le hlen), rfl⟩
  case inr.inr.inr.inl =>
    refine ⟨?_, rfl⟩
    rw [encode, lowByte_wordOf, highByte_wordOf]
    exact congrArg (_ :: ·) (eq_cons_cons_of_three_le hlen)
  case inr.inr.inr.inr =>
    rw [lengthOf_of_not_mapped unmapped]
    exact ⟨rfl, wf_unhandled.mpr unmapped⟩

/-- Settles O1: every word is short and closed, so decoding it computes. -/
theorem specWordsDecodeAsWritten : Obligations.SpecWordsDecodeAsWritten :=
  ⟨rfl, rfl, rfl, rfl, rfl⟩

end Sys2Proof

namespace Sys2Proof.Machine

/-- Bit 0 of a concatenation with one more bit is that bit. -/
theorem getLsbD_append_bit_zero {n : Nat} (v : BitVec n) (b : BitVec 1) : (v ++ b).getLsbD 0 = b.getLsbD 0 := by
  rw [BitVec.getLsbD_append, if_pos Nat.one_pos]

/-- The other bits of a concatenation with one more bit are the bits before it, one place up. -/
theorem getLsbD_append_bit_succ {n : Nat} (v : BitVec n) (b : BitVec 1) (k : Nat) :
    (v ++ b).getLsbD (k + 1) = v.getLsbD k := by
  simp [BitVec.getLsbD_append]

/-- Settles O47: each bit of the concatenation is the one put at its place, and a one-bit vector is its bit. -/
theorem packedFlagsLayout : Obligations.PackedFlagsLayout := by
  intro p
  simp only [packFlags, getLsbD_append_bit_succ, getLsbD_append_bit_zero]
  simp

end Sys2Proof.Machine
end

section
/-! PROOF. What each instruction does, one lemma a form (42_load.md, 43_subroutine.md, 44_unhandled.md), and from these
once and for all what an instruction at the program counter can do: `InstrStep`. -/

namespace Sys2Proof

/-- An unmapped opcode costs one cycle (R107, decision D12). -/
theorem cyclesOf_of_not_mapped {op : Byte} (h : op ∉ mappedOpcodes) : cyclesOf op = 1 := by
  simp [cyclesOf, lookup_of_not_mapped h]

/-- Every instruction costs at least one cycle and at most six (R107, R111). -/
theorem cyclesOf_bounds (op : Byte) : 1 ≤ cyclesOf op ∧ cyclesOf op ≤ 6 := by
  by_cases h : op ∈ mappedOpcodes
  · have mapped_bounds : ∀ op ∈ mappedOpcodes, 1 ≤ cyclesOf op ∧ cyclesOf op ≤ 6 := by decide
    exact mapped_bounds op h
  · rw [cyclesOf_of_not_mapped h]
    decide

/-- The LDA forms are two bytes long (R62). -/
theorem lengthOf_of_lda {op : Byte} (h : op ∈ [0xA9#8, 0xA5#8, 0xB5#8]) : lengthOf op = 2 := by
  have lda_length : ∀ op ∈ [0xA9#8, 0xA5#8, 0xB5#8], lengthOf op = 2 := by decide
  exact lda_length op h

/-- No LDA opcode is the JSR one (R62). -/
theorem ne_jsr_of_lda {op : Byte} (h : op ∈ [0xA9#8, 0xA5#8, 0xB5#8]) : op ≠ 0x20#8 := by
  rintro rfl
  exact absurd h (by decide)

/-- The JSR opcode is mapped (R62). -/
theorem ne_jsr_of_not_mapped {op : Byte} (h : op ∉ mappedOpcodes) : op ≠ 0x20#8 := by
  rintro rfl
  exact absurd (by decide) h

end Sys2Proof

namespace Sys2Proof.Machine

/-! ## The LDA family -/

@[simp] theorem afterLda_run (v : Byte) (n : Nat) (s : State) : (afterLda v n s).run = s.run := rfl

/-- The indexed address stays in the zero page (R87, decision D6). -/
theorem zeroPageXAddr_toNat (zp x : Byte) : (zeroPageXAddr zp x).toNat = (zp.toNat + x.toNat) % 256 := by
  rw [zeroPageXAddr, zext16_toNat, idx8, BitVec.toNat_add]

/-- Settles O6: the whole next state is `afterLda` of the operand, 2 cycles. -/
theorem ldaImmediateResult : Obligations.LdaImmediateResult := fun imm s => exec_ldaImm imm s

/-- Settles O8: the whole next state is `afterLda` of the byte at the indexed address, 4 cycles. -/
theorem ldaZeroPageXResult : Obligations.LdaZeroPageXResult := by
  intro zp s
  rw [exec_ldaZpx, zeroPageXAddr_toNat]
  rfl

/-- Settles O10: every form ends in `afterLda`, which writes A, Z, N, PC and the budget alone. -/
theorem ldaFrame : Obligations.LdaFrame := by
  intro i v s t hlda h
  obtain ⟨w, n, rfl⟩ := lda_next hlda h
  exact ⟨rfl, rfl, rfl, rfl, rfl, rfl, rfl, rfl, rfl, rfl, rfl, rfl, rfl, rfl, rfl, fun _ => rfl⟩

/-! ## JSR -/

/-- The state a JSR leaves where its push fits (R130; decisions D4, D5, D8, D10). -/
def afterJsr (target : Word) (s : State) : State :=
  { s with
    pc := target
    sp := s.sp + 1#16
    cycles := s.cycles - 6
    mem := memPut (memPut s.mem s.sp.toNat (lowByte (s.pc + 2#16))) (s.sp.toNat + 1) (highByte (s.pc + 2#16)) }

@[simp] theorem afterJsr_pc (target : Word) (s : State) : (afterJsr target s).pc = target := rfl
@[simp] theorem afterJsr_sp (target : Word) (s : State) : (afterJsr target s).sp = s.sp + 1#16 := rfl
@[simp] theorem afterJsr_run (target : Word) (s : State) : (afterJsr target s).run = s.run := rfl

theorem afterJsr_mem (target : Word) (s : State) :
    (afterJsr target s).mem =
      memPut (memPut s.mem s.sp.toNat (lowByte (s.pc + 2#16))) (s.sp.toNat + 1) (highByte (s.pc + 2#16)) := rfl

/-- The low byte of the return address stands at the old SP (R44, R130). -/
theorem memByte_afterJsr_low (target : Word) (s : State) :
    memByte (afterJsr target s).mem s.sp.toNat = lowByte (s.pc + 2#16) := by
  rw [afterJsr_mem, memByte_memPut_of_ne _ _ (Nat.ne_of_lt (Nat.lt_succ_self _)), memByte_memPut_self]

/-- The high byte of the return address stands after it (R44, R130). -/
theorem memByte_afterJsr_high (target : Word) (s : State) :
    memByte (afterJsr target s).mem (s.sp.toNat + 1) = highByte (s.pc + 2#16) := by
  rw [afterJsr_mem, memByte_memPut_self]

/-- A call leaves every byte but those two alone (R50). -/
theorem memByte_afterJsr_of_ne (target : Word) (s : State) {addr : Nat} (hlow : addr ≠ s.sp.toNat)
    (hhigh : addr ≠ s.sp.toNat + 1) : memByte (afterJsr target s).mem addr = memByte s.mem addr := by
  rw [afterJsr_mem, memByte_memPut_of_ne _ _ hhigh, memByte_memPut_of_ne _ _ hlow]

/-- SP below the top of memory rises by exactly one (R136). -/
theorem sp_add_one_toNat {sp : Word} (h : sp.toNat < 65535) : (sp + 1#16).toNat = sp.toNat + 1 := by
  rw [BitVec.toNat_add, BitVec.toNat_ofNat]
  omega

/-- The return address after the three fetches of a JSR is that of its last byte (R132). -/
theorem returnAddress_after_fetches (s : State) :
    returnAddress (advance (advance (advance s))) = s.pc + 2#16 := by
  simp only [returnAddress, advance_pc, dec16, inc16]
  bv_omega

/-- JSR where its push fits (R130). -/
theorem exec_jsrAbs_of_lt (target : Word) {s : State} (h : s.sp.toNat < 65535) :
    exec (.jsrAbs target) s = .next (afterJsr target s) :=
  have hcycles : s.cycles - 1 - 1 - 1 - 2 - 1 = s.cycles - 6 := by omega
  calc exec (.jsrAbs target) s
    _ = conclude s (callTo target (advance (advance (advance s)))) := rfl
    _ = .next (afterJsr target s) := by
      rw [callTo_of_lt target (s := advance (advance (advance s))) h, returnAddress_after_fetches, conclude_ok]
      simp only [advance_cycles, hcycles]
      rfl

/-- JSR at the top of memory takes the fatal fault (R130, R152, decision D13). -/
theorem exec_jsrAbs_top (target : Word) {s : State} (h : s.sp = 0xFFFF#16) :
    exec (.jsrAbs target) s = .next (takeFault (.memOutOfRange 0x10000) s) :=
  calc exec (.jsrAbs target) s
    _ = conclude s (callTo target (advance (advance (advance s)))) := rfl
    _ = .next (takeFault (.memOutOfRange 0x10000) s) := by
      rw [callTo_top target (s := advance (advance (advance s))) h, conclude_error]

/-- A word that is not the top of memory is below it. -/
theorem word_lt_of_ne_top {a : Word} (h : a ≠ 0xFFFF#16) : a.toNat < 65535 := (word_lt_or_top a).resolve_right h

/-- What a JSR that answers a next state leaves, where its push fits. -/
theorem jsr_next {target : Word} {s t : State} (hfits : s.sp.toNat < 65535) (h : exec (.jsrAbs target) s = .next t) :
    t = afterJsr target s := by
  rw [exec_jsrAbs_of_lt target hfits] at h
  cases h
  rfl

/-- Settles O11: the whole next state is `afterJsr`. -/
theorem jsrResult : Obligations.JsrResult := fun target _ hsp => exec_jsrAbs_of_lt target (word_lt_of_ne_top hsp)

/-- Settles O13: the next state is `takeFault`, which fixes run, fault and the reply. -/
theorem jsrAtTopOfMemoryIsFatal : Obligations.JsrAtTopOfMemoryIsFatal :=
  fun target _ hsp => ⟨_, exec_jsrAbs_top target hsp, rfl, rfl, rfl⟩

/-- Settles O14: the next state is `afterJsr`, which stores at SP and the address after it alone. -/
theorem jsrFrame : Obligations.JsrFrame := by
  intro target s t hsp h
  obtain rfl := jsr_next (word_lt_of_ne_top hsp) h
  refine ⟨rfl, rfl, rfl, rfl, rfl, rfl, rfl, rfl, rfl, rfl, rfl, fun addr hlow hhigh => ?_⟩
  rw [zext17_toNat] at hlow
  rw [inc17_toNat] at hhigh
  exact memByte_afterJsr_of_ne target s hlow hhigh

/-- Settles O15: the second call pushes one above the first, so it leaves the first low byte and stores its own two
after it. -/
theorem secondCallOverwritesFirstReturn : Obligations.SecondCallOverwritesFirstReturn := by
  intro t1 t2 s u w hsp h1 h2
  have hu : (afterJsr t1 s).sp.toNat = s.sp.toNat + 1 := sp_add_one_toNat (by omega)
  obtain rfl := jsr_next (by omega) h1
  obtain rfl := jsr_next (by omega) h2
  have hlow := memByte_afterJsr_low t2 (afterJsr t1 s)
  have hhigh := memByte_afterJsr_high t2 (afterJsr t1 s)
  rw [hu] at hlow hhigh
  refine ⟨?_, ?_, hlow, hhigh⟩
  · rw [afterJsr_sp, sp_add_one_toNat (by omega), hu]
  · rw [memByte_afterJsr_of_ne _ _ (by omega) (by omega), memByte_afterJsr_low]

/-- Settles O16: the call jumps to where it pushes, and the two places from there hold the return address. -/
theorem pushedBytesAreFetchedAtOnce : Obligations.PushedBytesAreFetchedAtOnce := by
  intro s t hsp h
  have hfits := word_lt_of_ne_top hsp
  obtain rfl := jsr_next hfits h
  constructor
  · rw [byteAtPC_zero, afterJsr_pc, memByte_afterJsr_low]
  · rw [byteAtPC, afterJsr_pc, sp_add_one_toNat hfits, memByte_afterJsr_high]

/-! ## The default handler -/

/-- Settles O17: the handler is the fetch and the report, field by field. -/
theorem unhandledResult : Obligations.UnhandledResult := fun op s => exec_unhandled op s

/-- Settles O18: the handler writes PC, the budget and the log alone. -/
theorem unhandledFrame : Obligations.UnhandledFrame := by
  intro op s t h
  rw [exec_unhandled] at h
  cases h
  exact ⟨rfl, rfl, rfl, rfl, rfl, rfl, rfl, rfl, rfl, rfl, rfl, fun _ => rfl⟩

/-! ## The instruction at the program counter -/

/-- All that the instruction at the program counter can do, by its opcode (R102): an LDA loads some byte, a call is made
or, at the top of memory, is fatal, and an unmapped opcode is reported. -/
inductive InstrStep (s : State) : State → Prop where
  | lda (v : Byte) (n : Nat) (hop : byteAtPC s 0 ∈ [0xA9#8, 0xA5#8, 0xB5#8]) (hcost : cyclesOf (byteAtPC s 0) = n) :
      InstrStep s (afterLda v n s)
  | call (hop : byteAtPC s 0 = 0x20#8) (hfits : s.sp.toNat < 65535) :
      InstrStep s (afterJsr (wordOf (byteAtPC s 2) (byteAtPC s 1)) s)
  | callAtTop (hop : byteAtPC s 0 = 0x20#8) (htop : s.sp = 0xFFFF#16) :
      InstrStep s (takeFault (.memOutOfRange 0x10000) s)
  | unhandled (hop : byteAtPC s 0 ∉ mappedOpcodes) : InstrStep s (report (byteAtPC s 0) (advance s))

/-- The instruction at the program counter answers a next state, and it is one of these. -/
theorem exec_instrAtPC_answers (s : State) : ∃ t, exec (instrAtPC s) s = .next t ∧ InstrStep s t := by
  obtain ⟨hop, hi⟩ | ⟨hop, hi⟩ | ⟨hop, hi⟩ | ⟨hop, hi⟩ | ⟨hop, hi⟩ :=
    instrOf_cases (byteAtPC s 0) (byteAtPC s 1) (byteAtPC s 2) <;> rw [instrAtPC, hi]
  · exact ⟨_, exec_ldaImm _ s, .lda _ _ (by simp [hop]) (by rw [hop]; rfl)⟩
  · exact ⟨_, exec_ldaZp _ s, .lda _ _ (by simp [hop]) (by rw [hop]; rfl)⟩
  · exact ⟨_, exec_ldaZpx _ s, .lda _ _ (by simp [hop]) (by rw [hop]; rfl)⟩
  · obtain hfits | htop := word_lt_or_top s.sp
    · exact ⟨_, exec_jsrAbs_of_lt _ hfits, .call hop hfits⟩
    · exact ⟨_, exec_jsrAbs_top _ htop, .callAtTop hop htop⟩
  · exact ⟨_, exec_unhandled _ s, .unhandled hop⟩

/-- What an instruction at the program counter did. -/
theorem instrStep_of_exec {s t : State} (h : exec (instrAtPC s) s = .next t) : InstrStep s t := by
  obtain ⟨u, hu, hstep⟩ := exec_instrAtPC_answers s
  rw [hu] at h
  cases h
  exact hstep

/-- What the step of a Ready block did. -/
theorem instrStep_of_step {s t : State} (hready : s.Ready) (h : step s = .next t) : InstrStep s t :=
  instrStep_of_exec ((step_of_ready hready).symm.trans h)

/-- An instruction that does not fault leaves X, Y, the fault and the FSM's position (R25, R26, R34, R36). -/
theorem InstrStep.frame {s t : State} (h : InstrStep s t) (hne : t.run ≠ .faulted) :
    t.x = s.x ∧ t.y = s.y ∧ t.fault = s.fault ∧ t.run = s.run ∧ t.hostReply = s.hostReply := by
  cases h with
  | lda | call | unhandled => exact ⟨rfl, rfl, rfl, rfl, rfl⟩
  | callAtTop => exact absurd rfl hne

/-- An instruction that does not fault charges its opcode's total (R107). -/
theorem InstrStep.cycles_eq {s t : State} (h : InstrStep s t) (hne : t.run ≠ .faulted) :
    t.cycles = s.cycles - (cyclesOf (byteAtPC s 0) : Int) := by
  cases h with
  | lda v n hop hcost => rw [hcost]; rfl
  | call hop => rw [hop]; rfl
  | callAtTop => exact absurd rfl hne
  | unhandled hop => rw [cyclesOf_of_not_mapped hop]; rfl

/-- An instruction that does not fault charges at least one cycle (R111). -/
theorem InstrStep.cycles_lt {s t : State} (h : InstrStep s t) (hne : t.run ≠ .faulted) : t.cycles < s.cycles := by
  have hcycles := h.cycles_eq hne
  have hbounds := cyclesOf_bounds (byteAtPC s 0)
  omega

/-- From a counter of at least 1 an instruction that does not fault leaves at least -5 (R33). -/
theorem InstrStep.neg_five_le_cycles {s t : State} (h : InstrStep s t) (hne : t.run ≠ .faulted)
    (hbudget : 0 < s.cycles) : -5 ≤ t.cycles := by
  have hcycles := h.cycles_eq hne
  have hbounds := cyclesOf_bounds (byteAtPC s 0)
  omega

end Sys2Proof.Machine
end

section
/-! PROOF. The step of a Ready block (41_dispatch_fsm.md R101 to R107): it runs what the bytes at the program counter
decode to, and each rule about it is read off the cases of `InstrStep`. -/

namespace Sys2Proof.Machine

/-! ## What the step runs -/

/-- The test of the budget where none is left: execute returns (R101, R103). -/
theorem step_of_exhausted {s : State} (hrun : s.run = .running) (hbudget : s.cycles ≤ 0) :
    step s = .next (executeReturn s) := by
  simp [step, stepRunning, hrun, Int.not_lt.mpr hbudget]

/-- The instruction at an opcode 0x20 is the JSR to its operand (R130). -/
theorem instrAtPC_of_jsr {s : State} (hop : byteAtPC s 0 = 0x20#8) :
    instrAtPC s = .jsrAbs (wordOf (byteAtPC s 2) (byteAtPC s 1)) := by
  rw [instrAtPC, hop]
  rfl

/-- Settles O21: the two sides of the budget test. -/
theorem budgetIsTestedBeforeEachInstruction : Obligations.BudgetIsTestedBeforeEachInstruction :=
  fun _ hrun => ⟨fun hbudget => step_of_ready ⟨hrun, hbudget⟩, step_of_exhausted hrun⟩

/-- Settles O20: three bytes always decode to `instrOf`, which is the instruction at the program counter. -/
theorem stepRunsTheDecodedInstruction : Obligations.StepRunsTheDecodedInstruction := by
  intro s i rest hrun hbudget hdecode
  rw [← byteAtPC_zero, decode_cons_cons_cons] at hdecode
  cases hdecode
  exact step_of_ready ⟨hrun, hbudget⟩

/-- Settles O41: the program counter of reset is 0xFFFC, so the window there is those three bytes. -/
theorem firstOpcodeAfterResetIsAtFFFC : Obligations.FirstOpcodeAfterResetIsAtFFFC :=
  fun _ _ hbudget => step_of_ready ⟨rfl, hbudget⟩

/-! ## A placed word (log 2) -/

/-- A place counted from the address after `pc` is the next place counted from `pc` (decision D5). -/
theorem inc16_add_ofNat (pc : Word) (k : Nat) : inc16 pc + BitVec.ofNat 16 k = pc + BitVec.ofNat 16 (k + 1) := by
  rw [inc16, BitVec.add_assoc, ← BitVec.ofNat_add, Nat.add_comm 1 k]

/-- Places less than 2^16 apart are different addresses. -/
theorem toNat_ne_toNat_add (pc : Word) {k : Nat} (hpos : 0 < k) (hk : k < 65536) :
    pc.toNat ≠ (pc + BitVec.ofNat 16 k).toNat := by
  have := pc.isLt
  rw [BitVec.toNat_add, BitVec.toNat_ofNat]
  omega

/-- Placed bytes leave a byte at any other address alone. -/
theorem memByte_placeBytes_of_ne (bs : List Byte) (m : Memory) (pc : Word) {addr : Nat}
    (h : ∀ k < bs.length, addr ≠ (pc + BitVec.ofNat 16 k).toNat) :
    memByte (placeBytes m pc bs) addr = memByte m addr := by
  induction bs generalizing m pc with
  | nil => rfl
  | cons b bs ih =>
    have hfirst : addr ≠ pc.toNat := by simpa using h 0 (by simp)
    have hothers : ∀ k < bs.length, addr ≠ (inc16 pc + BitVec.ofNat 16 k).toNat := fun k hk => by
      rw [inc16_add_ofNat]
      exact h (k + 1) (by simpa using hk)
    rw [placeBytes, ih _ _ hothers, memByte_memPut_of_ne _ _ hfirst]

/-- A placed byte is read back at its place, as long as the list does not come round to it again. -/
theorem memByte_placeBytes (bs : List Byte) (m : Memory) (pc : Word) (hlen : bs.length ≤ 65536) {k : Nat}
    (hk : k < bs.length) : memByte (placeBytes m pc bs) (pc + BitVec.ofNat 16 k).toNat = bs[k] := by
  induction bs generalizing m pc k with
  | nil => simp at hk
  | cons b bs ih =>
    rw [List.length_cons] at hlen hk
    rw [placeBytes]
    cases k with
    | zero =>
      have hothers : ∀ j < bs.length, pc.toNat ≠ (inc16 pc + BitVec.ofNat 16 j).toNat := fun j hj => by
        rw [inc16_add_ofNat]
        exact toNat_ne_toNat_add pc (Nat.succ_pos j) (by omega)
      simp [memByte_placeBytes_of_ne _ _ _ hothers]
    | succ k =>
      rw [← inc16_add_ofNat]
      exact ih _ _ (by omega) (by omega)

/-- The window at the program counter of a placed word is the word's three bytes. -/
theorem byteAtPC_withFetchWord (s : State) (nbits w : Nat) {k : Nat} (hk : k < 3) :
    byteAtPC (s.withFetchWord nbits w) k = (tableBytes nbits w)[k] :=
  memByte_placeBytes (tableBytes nbits w) s.mem s.pc (by simp [tableBytes]) hk

/-- A block with a placed word is inside an execute with budget left. -/
theorem withFetchWord_ready (s : State) (nbits w : Nat) : (s.withFetchWord nbits w).Ready := by
  refine ⟨rfl, ?_⟩
  change 0 < if 0 < s.cycles then s.cycles else 1
  split <;> omega

/-- Settles O5: the window holds the word's bytes, of which the decoder and the fetch make the same instruction. -/
theorem placedTableWordIsWhatStepRuns : Obligations.PlacedTableWordIsWhatStepRuns := by
  intro s nbits w i hi
  have hinstr : instrAtPC (s.withFetchWord nbits w) =
      instrOf (tableByte nbits w 0) (tableByte nbits w 1) (tableByte nbits w 2) := by
    rw [instrAtPC, byteAtPC_withFetchWord s nbits w (by decide), byteAtPC_withFetchWord s nbits w (by decide),
      byteAtPC_withFetchWord s nbits w (by decide)]
    rfl
  rw [decodeTableWord, tableBytes, decode_cons_cons_cons] at hi
  cases hi
  rw [step_of_ready (withFetchWord_ready s nbits w), hinstr]

/-! ## What the step changes -/

/-- Settles O12: the step is the call, whose two stored bytes put together are the return address. -/
theorem jsrStepJumpsAndStoresReturnAddress : Obligations.JsrStepJumpsAndStoresReturnAddress := by
  intro s hready hop hsp
  have hfits := word_lt_of_ne_top hsp
  have hstep : step s = .next (afterJsr (wordOf (byteAtPC s 2) (byteAtPC s 1)) s) := by
    rw [step_of_ready hready, instrAtPC_of_jsr hop, exec_jsrAbs_of_lt _ hfits]
  refine ⟨_, hstep, ?_, ?_, ?_⟩
  · rw [afterJsr_pc, wordOf_toNat]
  · rw [afterJsr_sp, sp_add_one_toNat hfits]
  · rw [memByte_afterJsr_low, memByte_afterJsr_high, ← wordOf_toNat, wordOf_highByte_lowByte]

/-- Settles O23: the charge is the opcode's total, which is at least 1 and at most 6, from a counter of at least 1. -/
theorem stepChargesTheTableTotal : Obligations.StepChargesTheTableTotal := by
  intro s t hready h hne
  have hinstr := instrStep_of_step hready h
  exact ⟨hinstr.cycles_eq hne, hinstr.neg_five_le_cycles hne hready.2, hinstr.cycles_lt hne⟩

/-- Settles O24: the counter falls, and to no less than -5, which 32 bits hold. -/
theorem counterFitsAHardwareBuild : Obligations.CounterFitsAHardwareBuild := by
  intro bits s t hbits hready hfits h hne
  obtain ⟨-, hleast, hfalls⟩ := stepChargesTheTableTotal s t hready h hne
  have hrange : (2 : Int) ^ 31 ≤ 2 ^ (bits - 1) := by
    refine pow_le_pow_right₀ (by decide) ?_
    simp only [Config.minBudgetBits] at hbits
    omega
  constructor <;> omega

/-- Settles O25: a call sets PC to its operand; an LDA adds its length 2 and an unmapped opcode its length 1. -/
theorem stepMovesTheProgramCounter : Obligations.StepMovesTheProgramCounter := by
  intro s t hready h hne
  cases instrStep_of_step hready h with
  | lda v n hop => exact ⟨fun hjsr => absurd hjsr (ne_jsr_of_lda hop), fun _ => by rw [lengthOf_of_lda hop]; rfl⟩
  | call hop => exact ⟨fun _ => rfl, fun hother => absurd hop hother⟩
  | callAtTop => exact absurd rfl hne
  | unhandled hop =>
    exact ⟨fun hjsr => absurd hjsr (ne_jsr_of_not_mapped hop), fun _ => by rw [lengthOf_of_not_mapped hop]; rfl⟩

/-- Settles O26: of the four cases the call at the top alone ends Faulted; the others keep the Running position, and
either their opcode is not 0x20 or the push fits. -/
theorem onlyACallAtTheTopFaults : Obligations.OnlyACallAtTheTopFaults := by
  intro s t hready h
  have hrun := hready.1
  cases instrStep_of_step hready h with
  | lda v n hop => simp [hrun, ne_jsr_of_lda hop]
  | call hop hfits =>
    have hsp : s.sp ≠ 0xFFFF#16 := fun htop => absurd (htop ▸ hfits) (by decide)
    simp [hrun, hsp]
  | callAtTop hop htop => simp [hop, htop]
  | unhandled hop => simp [hrun, ne_jsr_of_not_mapped hop]

/-- Settles O27: an LDA and a report keep the memory, and a call changes only the two bytes it stores. -/
theorem onlyCallsWriteMemory : Obligations.OnlyCallsWriteMemory := by
  intro s t addr hready h hne hchanged
  cases instrStep_of_step hready h with
  | lda | unhandled => exact absurd rfl hchanged
  | call hop =>
    refine ⟨hop, ?_⟩
    by_contra hother
    rw [not_or] at hother
    exact hchanged (memByte_afterJsr_of_ne _ s hother.1 hother.2)
  | callAtTop => exact absurd rfl hne

/-- Settles O31: an LDA and a report keep SP, and a call whose push fits raises it by one. -/
theorem stackPointerOnlyRisesByCalls : Obligations.StackPointerOnlyRisesByCalls := by
  intro s t hready h hne
  cases instrStep_of_step hready h with
  | lda | unhandled => exact .inl rfl
  | call hop hfits => exact .inr ⟨hop, sp_add_one_toNat hfits⟩
  | callAtTop => exact absurd rfl hne

/-- The state with other values in the fields no instruction reads. -/
def withUnread (a y : Byte) (p : Flags) (log : List Event) (s : State) : State :=
  { s with a := a, y := y, p := p, log := log }

/-- Each instruction does the same to what it steers from any A, Y, flags and log (R24, R26, R28, R35). -/
theorem exec_withUnread (i : Instr) (a y : Byte) (p : Flags) (log : List Event) {s t : State}
    (h : exec i s = .next t) :
    ∃ t', exec i (withUnread a y p log s) = .next t' ∧ t'.run = t.run ∧ t'.fault = t.fault ∧
      (t.run ≠ .faulted → t'.pc = t.pc ∧ t'.sp = t.sp ∧ t'.x = t.x ∧ t'.mem = t.mem ∧ t'.cycles = t.cycles) := by
  cases i with
  | ldaImm imm =>
    rw [exec_ldaImm] at h
    cases h
    exact ⟨_, exec_ldaImm _ _, rfl, rfl, fun _ => ⟨rfl, rfl, rfl, rfl, rfl⟩⟩
  | ldaZp zp =>
    rw [exec_ldaZp] at h
    cases h
    exact ⟨_, exec_ldaZp _ _, rfl, rfl, fun _ => ⟨rfl, rfl, rfl, rfl, rfl⟩⟩
  | ldaZpx zp =>
    rw [exec_ldaZpx] at h
    cases h
    exact ⟨_, exec_ldaZpx _ _, rfl, rfl, fun _ => ⟨rfl, rfl, rfl, rfl, rfl⟩⟩
  | jsrAbs target =>
    obtain hfits | htop := word_lt_or_top s.sp
    · obtain rfl := jsr_next hfits h
      exact ⟨_, exec_jsrAbs_of_lt target (s := withUnread a y p log s) hfits, rfl, rfl,
        fun _ => ⟨rfl, rfl, rfl, rfl, rfl⟩⟩
    · rw [exec_jsrAbs_top target htop] at h
      cases h
      exact ⟨_, exec_jsrAbs_top target (s := withUnread a y p log s) htop, rfl, rfl, fun hne => absurd rfl hne⟩
  | unhandled op =>
    rw [exec_unhandled] at h
    cases h
    exact ⟨_, exec_unhandled _ _, rfl, rfl, fun _ => ⟨rfl, rfl, rfl, rfl, rfl⟩⟩

/-- Settles O32: the changed state is Ready at the same instruction, which steers by none of the changed fields. -/
theorem accumulatorYFlagsAndLogSteerNothing : Obligations.AccumulatorYFlagsAndLogSteerNothing := by
  intro s t a' y' p' log' hready h
  obtain ⟨t', ht', hsame⟩ := exec_withUnread (instrAtPC s) a' y' p' log' ((step_of_ready hready).symm.trans h)
  exact ⟨t', (step_of_ready (s := withUnread a' y' p' log' s) hready).trans ht', hsame⟩

end Sys2Proof.Machine
end

section
/-! PROOF. Every step of the machine (41_dispatch_fsm.md R103, 70_reset_and_hazards.md R188): the cases of `StepKind`,
and the rules about all steps read off them. -/

namespace Sys2Proof.Machine

/-! ## A request of the host -/

/-- A block inside no execute serves the host's oldest request, off the list (R103, R188). -/
theorem step_of_not_running_cons {s : State} {op : HostOp} {rest : List HostOp} (hrun : s.run ≠ .running)
    (hqueue : s.hostQueue = op :: rest) : step s = hostServe op { s with hostQueue := rest } := by
  cases hr : s.run with
  | idle | faulted => simp [step, stepIdle, stepFaulted, hr, hqueue]
  | running => exact absurd hr hrun

/-- A state read is served on an Idle and on a Faulted block (R188). -/
theorem hostServe_readState {s : State} (hrun : s.run ≠ .running) :
    hostServe .readState s = .next (hostReadState s) := by
  cases hr : s.run with
  | idle | faulted => simp [hostServe, hr]
  | running => exact absurd hr hrun

/-- On a Faulted block every other operation of the host is the fault (R152, R188). -/
theorem hostServe_of_faulted {op : HostOp} {s : State} (hrun : s.run = .faulted) (hop : op ≠ .readState) :
    hostServe op s = .fault (.blockFaulted s.fault) := by
  cases op with
  | reset | memWrite | memRead | execute => exact requireIdle_of_faulted _ hrun
  | readState => exact absurd rfl hop

/-- On a Running block the host is blocked (R188; log 18). -/
theorem hostServe_of_running (op : HostOp) {s : State} (hrun : s.run = .running) :
    hostServe op s = .refused .hostBlocked := by
  cases op with
  | reset | memWrite | memRead | execute => exact requireIdle_of_running _ hrun
  | readState => simp [hostServe, hrun]

/-- A host write in range puts its byte (R186). -/
theorem hostMemWrite_of_lt {addr : Nat} (v : Byte) (s : State) (h : addr < 65536) :
    hostMemWrite addr v s = { s with mem := memPut s.mem addr v, hostReply := some .done } :=
  ((hostMemWrite_cases addr v s).resolve_right fun hout => absurd h (Nat.not_lt.mpr hout.1)).2

/-- A host write out of range fails (R186). -/
theorem hostMemWrite_of_ge {addr : Nat} (v : Byte) (s : State) (h : 65536 ≤ addr) :
    hostMemWrite addr v s = hostFails (.memOutOfRange addr) s :=
  ((hostMemWrite_cases addr v s).resolve_left fun hin => absurd hin.1 (Nat.not_lt.mpr h)).2

/-- A host read in range gets the byte (R188). -/
theorem hostMemRead_of_lt {addr : Nat} (s : State) (h : addr < 65536) :
    hostMemRead addr s = { s with hostReply := some (.byte (memByte s.mem addr)) } :=
  ((hostMemRead_cases addr s).resolve_right fun hout => absurd h (Nat.not_lt.mpr hout.1)).2

/-- A host read out of range fails (R188). -/
theorem hostMemRead_of_ge {addr : Nat} (s : State) (h : 65536 ≤ addr) :
    hostMemRead addr s = hostFails (.memOutOfRange addr) s :=
  ((hostMemRead_cases addr s).resolve_left fun hin => absurd hin.1 (Nat.not_lt.mpr h)).2

/-- Settles O45: the request is served by `hostReadState`, whose view lists those fields. -/
theorem hostReadsTheState : Obligations.HostReadsTheState :=
  fun _ _ hrun hqueue => (step_of_not_running_cons hrun hqueue).trans (hostServe_readState hrun)

/-- Settles O36: a state read is served; with no request, or any other at the head of the list, the step is the
fault. -/
theorem faultedBlockHasNoStep : Obligations.FaultedBlockHasNoStep := by
  intro s hrun
  have hnot : s.run ≠ .running := by simp [hrun]
  refine ⟨fun rest hqueue => hostReadsTheState s rest hnot hqueue, fun hother => ?_⟩
  cases hqueue : s.hostQueue with
  | nil => simp [step, stepFaulted, hrun, hqueue]
  | cons op rest =>
    have hop : op ≠ .readState := fun hread => hother rest (hread ▸ hqueue)
    exact (step_of_not_running_cons hnot hqueue).trans (hostServe_of_faulted hrun hop)

/-- Settles O40: the step is `hostReset`, which writes neither log, fault nor run. -/
theorem resetKeepsLogFaultAndRun : Obligations.ResetKeepsLogFaultAndRun := by
  intro s t rest hrun hqueue h
  rw [step_of_idle_reset hrun hqueue] at h
  cases h
  exact ⟨rfl, rfl, hrun, rfl, rfl⟩

/-- Settles O42: the request is served on the Idle block; each access has its one effect in range and out of it. -/
theorem hostMemoryAccess : Obligations.HostMemoryAccess := by
  intro s addr v rest hrun
  have hwrite : hostServe (.memWrite addr v) { s with hostQueue := rest } =
      .next (hostMemWrite addr v { s with hostQueue := rest }) := requireIdle_of_idle _ hrun
  have hread : hostServe (.memRead addr) { s with hostQueue := rest } =
      .next (hostMemRead addr { s with hostQueue := rest }) := requireIdle_of_idle _ hrun
  refine ⟨fun hqueue hin => ?_, fun hqueue hin => ?_, fun hqueue hout => ?_⟩
  · rw [step_of_idle_cons hrun hqueue, hwrite, hostMemWrite_of_lt _ _ hin]
  · rw [step_of_idle_cons hrun hqueue, hread, hostMemRead_of_lt _ hin]
  · obtain hqueue | hqueue := hqueue
    · rw [step_of_idle_cons hrun hqueue, hwrite, hostMemWrite_of_ge _ _ hout]
      rfl
    · rw [step_of_idle_cons hrun hqueue, hread, hostMemRead_of_ge _ hout]
      rfl

/-- After a failed host access an execute is refused (R186, decision D24). -/
theorem hostExecute_of_hostError (budget : Int) {s : State} {addr : Nat} (hrun : s.run = .idle)
    (herror : s.hostError = some addr) : hostExecute budget s = .refused (.launchAfterHostError addr) := by
  simp [hostExecute, requireIdle, hrun, herror]

/-- Settles O43: the request is served by `hostExecute`, with and without a failed host access. -/
theorem executeRequestLoadsTheBudget : Obligations.ExecuteRequestLoadsTheBudget :=
  fun _ budget _ hrun hqueue =>
    ⟨fun herror => (step_of_idle_cons hrun hqueue).trans (hostExecute_of_idle budget hrun herror),
      fun _ herror => (step_of_idle_cons hrun hqueue).trans (hostExecute_of_hostError budget hrun herror)⟩

/-- Settles O46: with an empty list there is nothing to serve. -/
theorem idleBlockKeepsItsState : Obligations.IdleBlockKeepsItsState := by
  intro s hrun hqueue
  simp [step, stepIdle, hrun, hqueue]

/-- Settles O55: all operations but the state read go through `requireIdle`, and so does the whole call. -/
theorem hostOperationsRequireAnIdleBlock : Obligations.HostOperationsRequireAnIdleBlock := by
  intro s op budget
  constructor
  · intro hrun hop
    have hexecute : hostExecute budget s = .fault (.blockFaulted s.fault) := requireIdle_of_faulted _ hrun
    exact ⟨hostServe_of_faulted hrun hop, by rw [execute, hexecute]⟩
  · intro hrun
    have hexecute : hostExecute budget s = .refused .hostBlocked := requireIdle_of_running _ hrun
    exact ⟨hostServe_of_running op hrun, by rw [execute, hexecute]⟩

/-! ## All steps -/

/-- All that a step can do: nothing, serve the host's oldest request, run an instruction, or return from execute. -/
inductive StepKind (s : State) : State → Prop where
  | stays (hrun : s.run = .idle) : StepKind s s
  | readsState {rest : List HostOp} (hqueue : s.hostQueue = .readState :: rest) :
      StepKind s (hostReadState { s with hostQueue := rest })
  | resets {rest : List HostOp} (hrun : s.run = .idle) (hqueue : s.hostQueue = .reset :: rest) :
      StepKind s (hostReset { s with hostQueue := rest })
  | memWrites {addr : Nat} {v : Byte} {rest : List HostOp} (hrun : s.run = .idle)
      (hqueue : s.hostQueue = .memWrite addr v :: rest) (hin : addr < Config.memCapacity) :
      StepKind s { s with hostQueue := rest, mem := memPut s.mem addr v, hostReply := some .done }
  | memReads {addr : Nat} {rest : List HostOp} (hrun : s.run = .idle)
      (hqueue : s.hostQueue = .memRead addr :: rest) (hin : addr < Config.memCapacity) :
      StepKind s { s with hostQueue := rest, hostReply := some (.byte (memByte s.mem addr)) }
  | accessFails {op : HostOp} {addr : Nat} {rest : List HostOp} (hrun : s.run = .idle)
      (hqueue : s.hostQueue = op :: rest) (hop : op = .memRead addr ∨ ∃ v, op = .memWrite addr v)
      (hout : Config.memCapacity ≤ addr) :
      StepKind s (hostFails (.memOutOfRange addr) { s with hostQueue := rest })
  | begins {budget : Int} {rest : List HostOp} (hrun : s.run = .idle)
      (hqueue : s.hostQueue = .execute budget :: rest) (herror : s.hostError = none) :
      StepKind s { s with hostQueue := rest, cycles := budget, run := .running, hostReply := none }
  | instr {t : State} (hready : s.Ready) (hinstr : InstrStep s t) : StepKind s t
  | returns (hrun : s.run = .running) (hbudget : s.cycles ≤ 0) : StepKind s (executeReturn s)

/-- What a served request did. -/
theorem stepKind_of_hostServe {s t : State} {op : HostOp} {rest : List HostOp} (hqueue : s.hostQueue = op :: rest)
    (h : hostServe op { s with hostQueue := rest } = .next t) : StepKind s t := by
  obtain ⟨rfl, -, rfl⟩ | ⟨hrun, hserved⟩ := hostServe_next h
  · exact .readsState hqueue
  obtain ⟨rfl, rfl⟩ | ⟨addr, v, rfl, rfl⟩ | ⟨addr, rfl, rfl⟩ | ⟨budget, rfl, herror, rfl⟩ := hserved
  · exact .resets hrun hqueue
  · obtain ⟨hin, heq⟩ | ⟨hout, heq⟩ := hostMemWrite_cases addr v { s with hostQueue := rest } <;> rw [heq]
    · exact .memWrites hrun hqueue hin
    · exact .accessFails hrun hqueue (.inr ⟨v, rfl⟩) hout
  · obtain ⟨hin, heq⟩ | ⟨hout, heq⟩ := hostMemRead_cases addr { s with hostQueue := rest } <;> rw [heq]
    · exact .memReads hrun hqueue hin
    · exact .accessFails hrun hqueue (.inl rfl) hout
  · exact .begins hrun hqueue herror

/-- What any step did. -/
theorem stepKind_of_step {s t : State} (h : step s = .next t) : StepKind s t := by
  unfold step at h
  split at h
  · next hrun =>
    obtain ⟨-, rfl⟩ | ⟨op, rest, hqueue, hserve⟩ := stepIdle_next h
    · exact .stays hrun
    · exact stepKind_of_hostServe hqueue hserve
  · next hrun =>
    obtain ⟨hbudget, hexec⟩ | ⟨hbudget, rfl⟩ := stepRunning_next h
    · exact .instr ⟨hrun, hbudget⟩ (instrStep_of_exec hexec)
    · exact .returns hrun hbudget
  · next hrun =>
    obtain ⟨rest, hqueue, rfl⟩ := stepFaulted_next hrun h
    exact .readsState hqueue

/-- Settles O28: no case but the reset writes X or Y. -/
theorem onlyResetWritesXAndY : Obligations.OnlyResetWritesXAndY := by
  intro s t h hne hchanged
  have unchanged_absurd (hx : t.x = s.x) (hy : t.y = s.y) : s.run = .idle ∧ ∃ rest, s.hostQueue = .reset :: rest :=
    hchanged.elim (absurd hx) (absurd hy)
  cases stepKind_of_step h with
  | resets hrun hqueue => exact ⟨hrun, _, hqueue⟩
  | instr hready hinstr =>
    obtain ⟨hx, hy, -⟩ := hinstr.frame hne
    exact unchanged_absurd hx hy
  | _ => exact unchanged_absurd rfl rfl

/-- An instruction that does not fault leaves C, I, D, B and V, and Z and N too unless it is an LDA (R28, R29). -/
theorem InstrStep.flags {s t : State} (h : InstrStep s t) (hne : t.run ≠ .faulted) :
    (∃ v, t.p = setZN v s.p ∧ byteAtPC s 0 ∈ [0xA9#8, 0xA5#8, 0xB5#8]) ∨ t.p = s.p := by
  cases h with
  | lda v n hop => exact .inl ⟨v, rfl, hop⟩
  | call | unhandled => exact .inr rfl
  | callAtTop => exact absurd rfl hne

/-- Settles O29: but for the reset, which is excluded, an LDA is the one case that writes flags, by `setZN`. -/
theorem flagWritersAreResetAndLda : Obligations.FlagWritersAreResetAndLda := by
  intro s t h hne hnoReset
  have unchanged (hp : t.p = s.p) :
      (t.p.c = s.p.c ∧ t.p.i = s.p.i ∧ t.p.d = s.p.d ∧ t.p.b = s.p.b ∧ t.p.v = s.p.v) ∧
        (t.p.z ≠ s.p.z ∨ t.p.n ≠ s.p.n → s.Ready ∧ byteAtPC s 0 ∈ [0xA9#8, 0xA5#8, 0xB5#8]) := by
    simp [hp]
  cases stepKind_of_step h with
  | resets hrun hqueue => exact absurd hqueue (hnoReset hrun _)
  | instr hready hinstr =>
    obtain ⟨v, hp, hop⟩ | hp := hinstr.flags hne
    · rw [hp]
      exact ⟨⟨rfl, rfl, rfl, rfl, rfl⟩, fun _ => ⟨hready, hop⟩⟩
    · exact unchanged hp
  | _ => exact unchanged rfl

/-- Settles O30: the report of an unmapped opcode is the one case that writes the log. -/
theorem onlyUnhandledOpcodesExtendTheLog : Obligations.OnlyUnhandledOpcodesExtendTheLog := by
  intro s t h hne
  cases stepKind_of_step h with
  | instr hready hinstr =>
    cases hinstr with
    | lda | call => exact .inl rfl
    | callAtTop => exact absurd rfl hne
    | unhandled hop => exact .inr ⟨hready, hop, rfl⟩
  | _ => exact .inl rfl

/-! ## The good states -/

/-- In a good state that is not Faulted there is no fault (R34). -/
theorem State.Good.fault_eq_none {s : State} (h : s.Good) (hrun : s.run ≠ .faulted) : s.fault = none := by
  obtain ⟨-, hfault, -⟩ := h
  simpa using mt hfault.mpr hrun

/-- In a good state with a fault the block is Faulted (R34, R36). -/
theorem State.Good.run_eq_faulted {s : State} (h : s.Good) (hfault : s.fault ≠ none) : s.run = .faulted := by
  obtain ⟨-, hfaulted, -⟩ := h
  exact hfaulted.mpr (Option.isSome_iff_ne_none.mpr hfault)

/-- A state without a fault is good if its memory is and no execute goes on after a failed host access. -/
theorem good_of_no_fault {t : State} (hmem : t.mem.wf = true) (hfault : t.fault = none) (hrun : t.run ≠ .faulted)
    (herror : t.run = .running → t.hostError = none) : t.Good := by
  refine ⟨hmem, ?_, ?_, herror⟩
  · simp [hfault, hrun]
  · simp [hfault]

/-- A state that differs from a good one in the memory's bytes and in what goodness does not read is good. -/
theorem State.Good.of_same {s t : State} (h : s.Good) (hmem : t.mem.wf = true) (hrun : t.run = s.run)
    (hfault : t.fault = s.fault) (herror : t.hostError = s.hostError) : t.Good := by
  obtain ⟨-, hfaulted, haddr, hexecute⟩ := h
  rw [State.Good, hrun, hfault, herror]
  exact ⟨hmem, hfaulted, haddr, hexecute⟩

/-- The memory a call leaves is in canonical form. -/
theorem afterJsr_mem_wf (target : Word) {s : State} (hfits : s.sp.toNat < 65535) (h : s.mem.wf = true) :
    (afterJsr target s).mem.wf = true :=
  memPut_wf _ (show s.sp.toNat + 1 < 65536 by omega) (memPut_wf _ (word_lt_capacity s.sp) h)

/-- The fatal fault of an address out of range leaves a good state, whatever the free values are (R152). -/
theorem takeFault_good {addr : Nat} (s : State) (h : Config.memCapacity ≤ addr) :
    (takeFault (.memOutOfRange addr) s).Good := by
  refine ⟨takeFault_mem_wf _ s, ?_, ?_, ?_⟩
  · simp
  · simpa [fatalAddr] using h
  · simp

/-- An instruction keeps a good state good. -/
theorem InstrStep.good {s t : State} (h : InstrStep s t) (hgood : s.Good) : t.Good := by
  have hmem : s.mem.wf = true := hgood.1
  cases h with
  | lda | unhandled => exact hgood.of_same hmem rfl rfl rfl
  | call hop hfits => exact hgood.of_same (afterJsr_mem_wf _ hfits hmem) rfl rfl rfl
  | callAtTop => exact takeFault_good s (Nat.le_refl _)

/-- Settles O33: nothing is listed in the memory, and the block is Idle without a fault. -/
theorem resetStateIsGood : Obligations.ResetStateIsGood :=
  good_of_no_fault rfl rfl (by decide) (fun _ => rfl)

/-- Settles O34: what the host's requests and the return do is on a block that is not Faulted or leaves what goodness
reads; the instructions are `InstrStep.good`. -/
theorem everyStepKeepsTheStateGood : Obligations.EveryStepKeepsTheStateGood := by
  intro s t hgood h
  have hmem : s.mem.wf = true := hgood.1
  have hfault (hrun : s.run = .idle) : s.fault = none := hgood.fault_eq_none (by simp [hrun])
  cases stepKind_of_step h with
  | stays => exact hgood
  | readsState => exact hgood.of_same hmem rfl rfl rfl
  | resets hrun => exact good_of_no_fault memInit_wf (hfault hrun) (by simp [hrun]) (by simp)
  | memWrites hrun _ hin => exact hgood.of_same (memPut_wf _ hin hmem) rfl rfl rfl
  | memReads => exact hgood.of_same hmem rfl rfl rfl
  | accessFails hrun => exact good_of_no_fault hmem (hfault hrun) (by simp [hrun]) (by simp [hrun])
  | begins hrun _ herror => exact good_of_no_fault hmem (hfault hrun) (by simp) fun _ => herror
  | instr _ hinstr => exact hinstr.good hgood
  | returns hrun => exact good_of_no_fault hmem (hgood.fault_eq_none (by simp [hrun])) (by simp) (by simp)

/-- Settles O35: a good state with a fault is Faulted, where the one step there is reads the state. -/
theorem faultIsNeverCleared : Obligations.FaultIsNeverCleared := by
  intro s t hgood hfault h
  have hrun := hgood.run_eq_faulted hfault
  cases stepKind_of_step h with
  | readsState => exact ⟨rfl, hrun⟩
  | instr hready => simp [hready.1] at hrun
  | stays hidle | resets hidle | memWrites hidle | memReads hidle | accessFails hidle | begins hidle =>
    simp [hidle] at hrun
  | returns hrunning => simp [hrunning] at hrun

/-! ## The explicit starting state -/

/-- A byte given last at its address reads back (R46). -/
theorem memByte_memOfCells_last (cells : List (Nat × Byte)) {addr : Nat} (v : Byte) (h : addr < 65536) :
    memByte (memOfCells (cells ++ [(addr, v)])) addr = v := by
  have hin : addr < Config.memCapacity := h
  simp [memOfCells, List.foldl_append, hin]

/-- Settles O44: the other fields are those of reset, and the memory is the cells written in turn. -/
theorem explicitStartIsAGoodLaunch : Obligations.ExplicitStartIsAGoodLaunch := by
  intro pc sp a x y p cells addr v
  refine ⟨⟨rfl, rfl, rfl⟩, good_of_no_fault (memOfCells_wf cells) rfl RunState.noConfusion (fun _ => rfl),
    rfl, rfl, rfl, rfl, rfl, rfl, fun hin later hlater => ?_, fun hcells => ?_⟩
  · exact (memByte_memOfCells_append _ later hlater).trans (memByte_memOfCells_last cells v hin)
  · exact memByte_memOfCells_append [] cells hcells

end Sys2Proof.Machine
end

section
/-! PROOF. Whole execute calls (41_dispatch_fsm.md R100, R108 to R112): `finish`, the loop with the steps its budget
needs, and one induction over the instructions of a call, from which each rule about calls follows. -/

namespace Sys2Proof.Machine

/-! ## The turns of the loop -/

/-- The loop of execute from a Running state, with the steps its budget can need (R111). -/
def finish (s : State) : Host.Outcome State Fault Refusal := runWhileRunning (s.cycles.toNat + 1) s

/-- A Ready block's instruction goes on in the loop with less budget, or is the call at the top of memory (R45,
R107). -/
theorem ready_step_cases {s : State} (hready : s.Ready) :
    (∃ u, step s = .next u ∧ InstrStep s u ∧ u.run = .running ∧ u.cycles < s.cycles) ∨
      step s = .next (takeFault (.memOutOfRange 0x10000) s) := by
  obtain ⟨u, hexec, hinstr⟩ := exec_instrAtPC_answers s
  have hstep : step s = .next u := (step_of_ready hready).trans hexec
  by_cases hne : u.run = .faulted
  · right
    cases hinstr with
    | callAtTop => exact hstep
    | lda | call | unhandled => exact absurd hne (by simp [hready.1])
  · obtain ⟨-, -, -, hrun, -⟩ := hinstr.frame hne
    exact .inl ⟨u, hstep, hinstr, hrun.trans hready.1, hinstr.cycles_lt hne⟩

/-- The induction over the instructions of one execute: what holds where no budget is left and where the instruction is
fatal, and holds of a state when it holds after its instruction, holds of every Running state. -/
theorem running_induction {motive : (s : State) → s.run = .running → Prop}
    (exhausted : ∀ s hrun, s.cycles ≤ 0 → motive s hrun)
    (fatal : ∀ s (hready : s.Ready), step s = .next (takeFault (.memOutOfRange 0x10000) s) → motive s hready.1)
    (goesOn : ∀ s u (hready : s.Ready), step s = .next u → InstrStep s u → ∀ hu : u.run = .running,
      u.cycles < s.cycles → motive u hu → motive s hready.1)
    (s : State) (hrun : s.run = .running) : motive s hrun := by
  induction hn : s.cycles.toNat using Nat.strong_induction_on generalizing s with
  | _ n ih =>
    by_cases hbudget : 0 < s.cycles
    · obtain ⟨u, hstep, hinstr, hu, hfalls⟩ | hfatal := ready_step_cases ⟨hrun, hbudget⟩
      · exact goesOn s u ⟨hrun, hbudget⟩ hstep hinstr hu hfalls (ih _ (by omega) u hu rfl)
      · exact fatal s ⟨hrun, hbudget⟩ hfatal
    · exact exhausted s hrun (by omega)

/-- Without budget the loop is the return (R100). -/
theorem runWhileRunning_of_exhausted (fuel : Nat) {s : State} (hrun : s.run = .running) (hbudget : s.cycles ≤ 0) :
    runWhileRunning (fuel + 1) s = .next (executeReturn s) := by
  rw [runWhileRunning_of_next fuel hrun (step_of_exhausted hrun hbudget),
    runWhileRunning_of_not_running fuel (by simp)]

/-- A fatal instruction ends the loop (R104, R152). -/
theorem runWhileRunning_of_fatal (fuel : Nat) {s u : State} (hrun : s.run = .running) (hstep : step s = .next u)
    (hu : u.run = .faulted) : runWhileRunning (fuel + 1) s = .next u := by
  rw [runWhileRunning_of_next fuel hrun hstep, runWhileRunning_of_not_running fuel (by simp [hu])]

/-- More fuel than the budget needs changes nothing (R111). -/
theorem runWhileRunning_eq_finish {s : State} (hrun : s.run = .running) :
    ∀ fuel, s.cycles.toNat < fuel → runWhileRunning fuel s = finish s := by
  induction s, hrun using running_induction with
  | exhausted s hrun hbudget =>
    intro fuel hfuel
    obtain ⟨fuel, rfl⟩ := Nat.exists_eq_add_one_of_ne_zero (Nat.ne_zero_of_lt hfuel)
    rw [finish, runWhileRunning_of_exhausted fuel hrun hbudget, runWhileRunning_of_exhausted _ hrun hbudget]
  | fatal s hready hstep =>
    intro fuel hfuel
    obtain ⟨fuel, rfl⟩ := Nat.exists_eq_add_one_of_ne_zero (Nat.ne_zero_of_lt hfuel)
    rw [finish, runWhileRunning_of_fatal fuel hready.1 hstep rfl, runWhileRunning_of_fatal _ hready.1 hstep rfl]
  | goesOn s u hready hstep _ _ hfalls ih =>
    intro fuel hfuel
    obtain ⟨fuel, rfl⟩ := Nat.exists_eq_add_one_of_ne_zero (Nat.ne_zero_of_lt hfuel)
    obtain ⟨hrun, hbudget⟩ := hready
    rw [finish, runWhileRunning_of_next fuel hrun hstep, runWhileRunning_of_next _ hrun hstep,
      ih fuel (by omega), ih s.cycles.toNat (by omega)]

theorem finish_of_exhausted {s : State} (hrun : s.run = .running) (hbudget : s.cycles ≤ 0) :
    finish s = .next (executeReturn s) := runWhileRunning_of_exhausted _ hrun hbudget

theorem finish_of_fatal {s u : State} (hready : s.Ready) (hstep : step s = .next u) (hu : u.run = .faulted) :
    finish s = .next u := runWhileRunning_of_fatal _ hready.1 hstep hu

/-- One instruction of a call, and the rest of the call after it. -/
theorem finish_of_step {s u : State} (hready : s.Ready) (hstep : step s = .next u) (hu : u.run = .running) :
    finish s = finish u := by
  have hfalls := (instrStep_of_step hready hstep).cycles_lt (by simp [hu])
  have hbudget := hready.2
  rw [finish, runWhileRunning_of_next _ hready.1 hstep, runWhileRunning_eq_finish hu _ (by omega)]

/-! ## The call -/

/-- The state in which an execute of `budget` has begun (R100). -/
def begun (budget : Int) (s : State) : State := { s with cycles := budget, run := .running, hostReply := none }

/-- An execute on an Idle block with no failed host access is the loop from its budget (R100). -/
theorem execute_eq_finish (budget : Int) {s : State} (hrun : s.run = .idle) (herror : s.hostError = none) :
    execute budget s = finish (begun budget s) := execute_of_idle budget hrun herror

/-- An execute that answers is the loop from its budget. -/
theorem execute_next_eq_finish {budget : Int} {s t : State} (h : execute budget s = .next t) :
    finish (begun budget s) = .next t := by
  obtain ⟨hrun, herror⟩ := execute_next h
  rw [← execute_eq_finish budget hrun herror, h]

/-- Settles O48: no budget is left at once, and the return is all there is. -/
theorem executeWithoutBudgetRunsNothing : Obligations.ExecuteWithoutBudgetRunsNothing := by
  intro budget s hbudget hrun herror
  rw [execute_eq_finish budget hrun herror, finish_of_exhausted rfl hbudget]
  simp only [executeReturn, begun, hrun]

/-- A call whose one instruction uses the budget up is that instruction and the return. -/
theorem finish_of_last_step {s u : State} (hready : s.Ready) (hstep : step s = .next u) (hu : u.run = .running)
    (hbudget : u.cycles ≤ 0) : finish s = .next (executeReturn u) :=
  (finish_of_step hready hstep hu).trans (finish_of_exhausted hu hbudget)

/-- Settles O49: the instruction does not fault, since a call at the top is excluded, so it charges its total, which is
the whole budget. -/
theorem exactBudgetRunsOneInstruction : Obligations.ExactBudgetRunsOneInstruction := by
  intro s ⟨hidle, _, herror⟩ hnotTop
  have hready : (begun (cyclesOf (byteAtPC s 0)) s).Ready := ⟨rfl, Int.natCast_pos.mpr (cyclesOf_bounds _).1⟩
  obtain ⟨u, hstep, hinstr, hu, -⟩ | hfatal := ready_step_cases hready
  · have hcycles : u.cycles = cyclesOf (byteAtPC s 0) - cyclesOf (byteAtPC s 0) := hinstr.cycles_eq (by simp [hu])
    refine ⟨u, (step_of_ready hready).symm.trans hstep, by omega, ?_⟩
    rw [execute_eq_finish _ hidle herror]
    exact finish_of_last_step hready hstep hu (by omega)
  · obtain ⟨hop, htop⟩ := (onlyACallAtTheTopFaults _ _ hready hfatal).mp rfl
    exact absurd htop (hnotTop hop)

/-- Settles O50: the instruction charges at least the whole budget of 1, or is fatal. -/
theorem executeOneSingleSteps : Obligations.ExecuteOneSingleSteps := by
  intro s u ⟨hidle, _, herror⟩ hexec
  have hready : (begun 1 s).Ready := ⟨rfl, Int.one_pos⟩
  have hstep : step (begun 1 s) = .next u := (step_of_ready hready).trans hexec
  rw [execute_eq_finish 1 hidle herror]
  refine ⟨fun hu => ?_, finish_of_fatal hready hstep⟩
  have hfalls : u.cycles < 1 := (instrStep_of_step hready hstep).cycles_lt (by simp [hu])
  exact finish_of_last_step hready hstep hu (by omega)

/-! ## How a call ends -/

/-- The loop ends normally or in the one fatal fault (R111, R191). -/
theorem finish_ends {s : State} (hrun : s.run = .running) :
    s.fault = none →
      ∃ t, finish s = .next t ∧ (t.NormalEnd ∨ (t.run = .faulted ∧ t.fault = some (.memOutOfRange 0x10000))) := by
  induction s, hrun using running_induction with
  | exhausted s hrun hbudget => exact fun hfault => ⟨_, finish_of_exhausted hrun hbudget, .inl ⟨rfl, hfault, hbudget⟩⟩
  | fatal s hready hstep => exact fun _ => ⟨_, finish_of_fatal hready hstep rfl, .inr ⟨rfl, rfl⟩⟩
  | goesOn s u hready hstep hinstr hu _ ih =>
    intro hfault
    obtain ⟨-, -, hkept, -⟩ := hinstr.frame (by simp [hu])
    rw [finish_of_step hready hstep hu]
    exact ih (hkept.trans hfault)

/-- Settles O51: the call is the loop, which ends. -/
theorem executeAlwaysEnds : Obligations.ExecuteAlwaysEnds := by
  intro budget s ⟨hidle, hfault, herror⟩
  rw [execute_eq_finish budget hidle herror]
  exact finish_ends rfl hfault

/-- The loop returns with the counter between the least an instruction leaves and 0 (R33, R108). -/
theorem finish_overshoot {s : State} (hrun : s.run = .running) :
    -5 ≤ s.cycles → ∀ t, finish s = .next t → t.run = .idle → -5 ≤ t.cycles ∧ t.cycles ≤ 0 := by
  induction s, hrun using running_induction with
  | exhausted s hrun hbudget =>
    intro hleast t ht _
    rw [finish_of_exhausted hrun hbudget] at ht
    cases ht
    exact ⟨hleast, hbudget⟩
  | fatal s hready hstep =>
    intro _ t ht hidle
    rw [finish_of_fatal hready hstep rfl] at ht
    cases ht
    cases hidle
  | goesOn s u hready hstep hinstr hu _ ih =>
    intro _ t ht
    rw [finish_of_step hready hstep hu] at ht
    exact ih (hinstr.neg_five_le_cycles (by simp [hu]) hready.2) t ht

/-- Settles O52: the call is the loop from a positive counter. -/
theorem overshootIsLessThanOneInstruction : Obligations.OvershootIsLessThanOneInstruction := by
  intro budget s t _ hbudget h hidle
  exact finish_overshoot (s := begun budget s) rfl (show -5 ≤ budget by omega) t (execute_next_eq_finish h) hidle

/-- Settles O56: the first instruction is the fatal call, and on the Faulted block each execute is the fault. -/
theorem executeOfACallAtTheTopEndsFaulted : Obligations.ExecuteOfACallAtTheTopEndsFaulted := by
  intro budget s ⟨hidle, _, herror⟩ hbudget hop htop
  have hready : (begun budget s).Ready := ⟨rfl, hbudget⟩
  have hstep : step (begun budget s) = .next (takeFault (.memOutOfRange 0x10000) (begun budget s)) := by
    rw [step_of_ready hready, instrAtPC_of_jsr (s := begun budget s) hop]
    exact exec_jsrAbs_top _ htop
  refine ⟨_, (execute_eq_finish budget hidle herror).trans (finish_of_fatal hready hstep rfl), rfl, rfl, fun again => ?_⟩
  exact ((hostOperationsRequireAnIdleBlock _ .reset again).1 rfl HostOp.noConfusion).2

/-! ## The call step by step -/

/-- The host's machine, from inside an execute, comes to its end in as many steps as there is budget and the return. -/
theorem core_run_eq_finish {s : State} (hrun : s.run = .running) :
    ∃ k, k ≤ s.cycles.toNat + 1 ∧ Host.Core.run Sys2Proof.core k s = finish s := by
  induction s, hrun using running_induction with
  | exhausted s hrun hbudget =>
    refine ⟨1, by omega, ?_⟩
    rw [finish_of_exhausted hrun hbudget]
    exact core_run_succ_of_next (M := Sys2Proof.core) 0 (step_of_exhausted hrun hbudget)
  | fatal s hready hstep =>
    refine ⟨1, by omega, ?_⟩
    rw [finish_of_fatal hready hstep rfl]
    exact core_run_succ_of_next (M := Sys2Proof.core) 0 hstep
  | goesOn s u hready hstep _ hu hfalls ih =>
    obtain ⟨k, hk, hrest⟩ := ih
    have hbudget := hready.2
    refine ⟨k + 1, by omega, ?_⟩
    rw [finish_of_step hready hstep hu, ← hrest]
    exact core_run_succ_of_next (M := Sys2Proof.core) k hstep

/-- Settles O53: one step serves the request, and the steps after it are the loop. -/
theorem steppedExecuteIsTheWholeCall : Obligations.SteppedExecuteIsTheWholeCall := by
  intro budget s rest hidle herror hqueue
  obtain ⟨k, hk, hloop⟩ := core_run_eq_finish (s := begun budget { s with hostQueue := rest }) rfl
  refine ⟨k + 1, Nat.succ_le_succ hk, ?_⟩
  rw [execute_eq_finish budget (s := { s with hostQueue := rest }) hidle herror, ← hloop]
  exact core_run_succ_of_next (M := Sys2Proof.core) k ((executeRequestLoadsTheBudget s budget rest hidle hqueue).1 herror)

/-! ## Calls in sequence -/

/-- The state with more budget. -/
def addBudget (d : Int) (s : State) : State := { s with cycles := s.cycles + d }

/-- An instruction that does not fault does the same whatever more budget there is (R32, R101). -/
theorem exec_addBudget (d : Int) (i : Instr) {s u : State} (h : exec i s = .next u) (hne : u.run ≠ .faulted) :
    exec i (addBudget d s) = .next (addBudget d u) := by
  have hcharge (n : Int) : s.cycles + d - n = s.cycles - n + d := by omega
  have hlda (v : Byte) (n : Nat) : afterLda v n (addBudget d s) = addBudget d (afterLda v n s) := by
    simp only [afterLda, charge, addBudget, hcharge]
  cases i with
  | ldaImm imm =>
    rw [exec_ldaImm] at h ⊢
    cases h
    rw [hlda]
  | ldaZp zp =>
    rw [exec_ldaZp] at h ⊢
    cases h
    rw [← hlda]
    rfl
  | ldaZpx zp =>
    rw [exec_ldaZpx] at h ⊢
    cases h
    rw [← hlda]
    rfl
  | jsrAbs target =>
    obtain hfits | htop := word_lt_or_top s.sp
    · obtain rfl := jsr_next hfits h
      rw [exec_jsrAbs_of_lt target (s := addBudget d s) hfits]
      simp only [afterJsr, addBudget, hcharge]
    · rw [exec_jsrAbs_top target htop] at h
      cases h
      exact absurd rfl hne
  | unhandled op =>
    rw [exec_unhandled] at h ⊢
    cases h
    simp only [report, advance, charge, addBudget, hcharge]

/-- More budget than none keeps a Ready block Ready. -/
theorem addBudget_ready {d : Int} {s : State} (hd : 0 ≤ d) (h : s.Ready) : (addBudget d s).Ready :=
  ⟨h.1, show 0 < s.cycles + d from Int.add_pos_of_pos_of_nonneg h.2 hd⟩

/-- Where a call returns, the call with `d` more budget is the next call with `d` more than what is left (R112,
decision D26). -/
theorem finish_addBudget {d : Int} (hd : 0 ≤ d) {s : State} (hrun : s.run = .running) :
    s.hostReply = none → ∀ t, finish s = .next t → t.run = .idle →
      finish (addBudget d s) = finish (begun (t.cycles + d) t) := by
  induction s, hrun using running_induction with
  | exhausted s hrun hbudget =>
    intro hreply t ht _
    rw [finish_of_exhausted hrun hbudget] at ht
    cases ht
    have hsame : begun (s.cycles + d) (executeReturn s) = addBudget d s := by
      simp only [begun, executeReturn, addBudget, hrun, hreply]
    rw [executeReturn_cycles, hsame]
  | fatal s hready hstep =>
    intro _ t ht hidle
    rw [finish_of_fatal hready hstep rfl] at ht
    cases ht
    cases hidle
  | goesOn s u hready hstep hinstr hu _ ih =>
    intro hreply t ht hidle
    have hne : u.run ≠ .faulted := by simp [hu]
    obtain ⟨-, -, -, -, hkept⟩ := hinstr.frame hne
    have hready' := addBudget_ready hd hready
    have hstep' : step (addBudget d s) = .next (addBudget d u) :=
      (step_of_ready hready').trans (exec_addBudget d _ ((step_of_ready hready).symm.trans hstep) hne)
    rw [finish_of_step hready hstep hu] at ht
    rw [finish_of_step hready' hstep' hu]
    exact ih (hkept.trans hreply) t ht hidle

/-- Settles O54: the one call is the first with `b2` more budget, which goes on as the second. -/
theorem splitBudgetsCompose : Obligations.SplitBudgetsCompose := by
  intro b1 b2 s t u _ hb2 h1 hidle h2
  obtain ⟨hrun, herror⟩ := execute_next h1
  have hwhole : execute (b1 + b2) s = .next u :=
    calc execute (b1 + b2) s
      _ = finish (addBudget b2 (begun b1 s)) := execute_eq_finish (b1 + b2) hrun herror
      _ = finish (begun (t.cycles + b2) t) := finish_addBudget hb2 rfl rfl t (execute_next_eq_finish h1) hidle
      _ = .next u := execute_next_eq_finish h2
  exact ⟨u, hwhole, rfl, rfl, fun _ => rfl⟩

end Sys2Proof.Machine
end
